-- ==== Sys2Proof/Word.lean ====
section
/-! DEFINITION. The two data widths of the core: an 8-bit byte and a 16-bit word (R23, R28). -/

namespace Sys2Proof

/-- An 8-bit unsigned value: a general register, a memory cell, a timer (R28, R30). -/
abbrev Byte := BitVec 8

/-- A 16-bit unsigned value: an opcode, the pc, the index register, a return address (R12, R13, R100). -/
abbrev Word := BitVec 16

end Sys2Proof
end

