-- ==== Sys2Proof/Syntax.lean ====
section
/-! DEFINITION. The instruction set: the 34 forms of R2 and R104, one constructor per row of spec/opcode_table.json,
in the table's order. -/

namespace Sys2Proof

/-- The index of one of the 16 general registers V0 to VF (R11, R30). -/
abbrev Reg := Fin 16

/-- An instruction. Fields as R101 and R103: `x` and `y` name registers, `nn` is a byte, `nnn` a 12-bit address,
`n` a count of sprite rows. -/
inductive Instr where
  /-- 00E0 `CLS` (R161) -/
  | cls
  /-- 00EE `RET` (R182) -/
  | ret
  /-- 1NNN `JP nnn` (R183) -/
  | jp (nnn : BitVec 12)
  /-- 2NNN `CALL nnn` (R184) -/
  | call (nnn : BitVec 12)
  /-- 3XNN `SE Vx, nn` (R185) -/
  | seByte (x : Reg) (nn : Byte)
  /-- 4XNN `SNE Vx, nn` (R186) -/
  | sneByte (x : Reg) (nn : Byte)
  /-- 5XY0 `SE Vx, Vy` (R187) -/
  | seReg (x y : Reg)
  /-- 6XNN `LD Vx, nn` (R201) -/
  | ldByte (x : Reg) (nn : Byte)
  /-- 7XNN `ADD Vx, nn` (R202) -/
  | addByte (x : Reg) (nn : Byte)
  /-- 8XY0 `LD Vx, Vy` (R203) -/
  | ldReg (x y : Reg)
  /-- 8XY1 `OR Vx, Vy` (R204) -/
  | orReg (x y : Reg)
  /-- 8XY2 `AND Vx, Vy` (R205) -/
  | andReg (x y : Reg)
  /-- 8XY3 `XOR Vx, Vy` (R206) -/
  | xorReg (x y : Reg)
  /-- 8XY4 `ADD Vx, Vy` (R207) -/
  | addReg (x y : Reg)
  /-- 8XY5 `SUB Vx, Vy` (R208) -/
  | sub (x y : Reg)
  /-- 8XY6 `SHR Vx, Vy` (R209) -/
  | shr (x y : Reg)
  /-- 8XY7 `SUBN Vx, Vy` (R210) -/
  | subn (x y : Reg)
  /-- 8XYE `SHL Vx, Vy` (R211) -/
  | shl (x y : Reg)
  /-- 9XY0 `SNE Vx, Vy` (R188) -/
  | sneReg (x y : Reg)
  /-- ANNN `LD I, nnn` (R231) -/
  | ldI (nnn : BitVec 12)
  /-- BNNN `JP V0, nnn` (R189) -/
  | jpV0 (nnn : BitVec 12)
  /-- CXNN `RND Vx, nn` (R212) -/
  | rnd (x : Reg) (nn : Byte)
  /-- DXYN `DRW Vx, Vy, n` (R162) -/
  | drw (x y : Reg) (n : Nat)
  /-- EX9E `SKP Vx` (R250) -/
  | skp (x : Reg)
  /-- EXA1 `SKNP Vx` (R251) -/
  | sknp (x : Reg)
  /-- FX07 `LD Vx, DT` (R252) -/
  | ldXDt (x : Reg)
  /-- FX0A `LD Vx, K` (R253) -/
  | ldXK (x : Reg)
  /-- FX15 `LD DT, Vx` (R254) -/
  | ldDtX (x : Reg)
  /-- FX18 `LD ST, Vx` (R255) -/
  | ldStX (x : Reg)
  /-- FX1E `ADD I, Vx` (R232) -/
  | addIX (x : Reg)
  /-- FX29 `LD F, Vx` (R233) -/
  | ldFX (x : Reg)
  /-- FX33 `LD B, Vx` (R234) -/
  | ldBX (x : Reg)
  /-- FX55 `LD [I], Vx` (R235) -/
  | ldMemX (x : Reg)
  /-- FX65 `LD Vx, [I]` (R236) -/
  | ldXMem (x : Reg)
  deriving DecidableEq, Repr

end Sys2Proof
end

