-- ==== Sys2Proof/Decode.lean ====
section
/-! DEFINITION. Instruction encoding (30_encoding.md): the fields of R101, the decoder of R104, total on every word and
on every byte list and rejecting by name, the encoder written from the same table, and the table itself as data. -/

namespace Sys2Proof

/-- F, op[15:12]: selects the family (R101). -/
def opFamily (op : Word) : Nat := (op.extractLsb' 12 4).toNat

/-- X, op[11:8], as a register index (R101). -/
def opX (op : Word) : Reg := ⟨(op.extractLsb' 8 4).toNat, (op.extractLsb' 8 4).isLt⟩

/-- Y, op[7:4], as a register index (R101). -/
def opY (op : Word) : Reg := ⟨(op.extractLsb' 4 4).toNat, (op.extractLsb' 4 4).isLt⟩

/-- N, op[3:0]: the sprite height, or the function code of families 5, 8 and 9 (R101). -/
def opN (op : Word) : Nat := (op.extractLsb' 0 4).toNat

/-- NN, op[7:0]: the byte immediate, or the function code of families E and F (R101). -/
def opNN (op : Word) : Byte := op.extractLsb' 0 8

/-- NNN, op[11:0]: the address immediate (R101). -/
def opNNN (op : Word) : BitVec 12 := op.extractLsb' 0 12

/-- The families that hold unrecognized words, one name for each row of the table of R105 with a count above 0. -/
inductive Unrecognized where
  /-- 0x0000-0x0FFF except 0x00E0 and 0x00EE: the 0NNN space (R106). -/
  | family0
  /-- 0x5XYn with n != 0. -/
  | family5
  /-- 0x8XYn with n in 8, 9, A, B, C, D, F. -/
  | family8
  /-- 0x9XYn with n != 0. -/
  | family9
  /-- 0xEXkk with kk not in 9E, A1. -/
  | familyE
  /-- 0xFXkk with kk not one of the nine function bytes of family F. -/
  | familyF
  deriving DecidableEq, Repr

/-- The families 5 and 9: a skip on two registers if the function nibble is 0 (R104, R107). -/
def decodeSkipReg (op : Word) (i : Reg → Reg → Instr) (why : Unrecognized) : Except Unrecognized Instr :=
  if opN op = 0 then .ok (i (opX op) (opY op)) else .error why

/-- The family 8: the function nibble N selects the operation (R104). -/
def decodeAlu (op : Word) : Except Unrecognized Instr :=
  match opN op with
  | 0x0 => .ok (.ldReg (opX op) (opY op))
  | 0x1 => .ok (.orReg (opX op) (opY op))
  | 0x2 => .ok (.andReg (opX op) (opY op))
  | 0x3 => .ok (.xorReg (opX op) (opY op))
  | 0x4 => .ok (.addReg (opX op) (opY op))
  | 0x5 => .ok (.sub (opX op) (opY op))
  | 0x6 => .ok (.shr (opX op) (opY op))
  | 0x7 => .ok (.subn (opX op) (opY op))
  | 0xE => .ok (.shl (opX op) (opY op))
  | _ => .error .family8

/-- The family E: the whole low byte selects the key skip (R104, R107). -/
def decodeKeySkip (op : Word) : Except Unrecognized Instr :=
  match (opNN op).toNat with
  | 0x9E => .ok (.skp (opX op))
  | 0xA1 => .ok (.sknp (opX op))
  | _ => .error .familyE

/-- The family F: the whole low byte selects the operation (R104, R107). -/
def decodeMisc (op : Word) : Except Unrecognized Instr :=
  match (opNN op).toNat with
  | 0x07 => .ok (.ldXDt (opX op))
  | 0x0A => .ok (.ldXK (opX op))
  | 0x15 => .ok (.ldDtX (opX op))
  | 0x18 => .ok (.ldStX (opX op))
  | 0x1E => .ok (.addIX (opX op))
  | 0x29 => .ok (.ldFX (opX op))
  | 0x33 => .ok (.ldBX (opX op))
  | 0x55 => .ok (.ldMemX (opX op))
  | 0x65 => .ok (.ldXMem (opX op))
  | _ => .error .familyF

/-- The decoder of R104: every 16-bit word is one instruction or is unrecognized, by name. Every fixed bit is compared.
The last arm is the family F: `opFamily op` is below 16. -/
def decodeWord (op : Word) : Except Unrecognized Instr :=
  match opFamily op with
  | 0x0 => if op = 0x00E0 then .ok .cls else if op = 0x00EE then .ok .ret else .error .family0
  | 0x1 => .ok (.jp (opNNN op))
  | 0x2 => .ok (.call (opNNN op))
  | 0x3 => .ok (.seByte (opX op) (opNN op))
  | 0x4 => .ok (.sneByte (opX op) (opNN op))
  | 0x5 => decodeSkipReg op .seReg .family5
  | 0x6 => .ok (.ldByte (opX op) (opNN op))
  | 0x7 => .ok (.addByte (opX op) (opNN op))
  | 0x8 => decodeAlu op
  | 0x9 => decodeSkipReg op .sneReg .family9
  | 0xA => .ok (.ldI (opNNN op))
  | 0xB => .ok (.jpV0 (opNNN op))
  | 0xC => .ok (.rnd (opX op) (opNN op))
  | 0xD => .ok (.drw (opX op) (opY op) (opN op))
  | 0xE => decodeKeySkip op
  | _ => decodeMisc op

/-- Why a byte list is not the beginning of an instruction stream. -/
inductive DecodeError where
  /-- Fewer than the two bytes that every instruction has (R100). -/
  | truncated
  /-- The first two bytes are an unrecognized word (R105). -/
  | unrecognized (why : Unrecognized) (op : Word)
  deriving DecidableEq, Repr

/-- The 16-bit opcode of two bytes, the first being the high byte (R67). -/
def wordOfBytes (hi lo : Byte) : Word := hi ++ lo

/-- The two bytes of a word in the order memory holds them, high byte first (R67). -/
def bytesOfWord (op : Word) : List Byte := [op.extractLsb' 8 8, op.extractLsb' 0 8]

/-- Decode the instruction at the head of a byte list and give back the rest of the list (R100: two bytes, high first). -/
def decode : List Byte → Except DecodeError (Instr × List Byte)
  | hi :: lo :: rest =>
    match decodeWord (wordOfBytes hi lo) with
    | .ok i => .ok (i, rest)
    | .error why => .error (.unrecognized why (wordOfBytes hi lo))
  | [_] => .error .truncated
  | [] => .error .truncated

/-- The instruction the decoder reads from the table's word `w` of `nbits` bits, laid out as memory holds it. -/
def decodeTableWord (nbits w : Nat) : Option Instr :=
  match decode (bytesOfWord (BitVec.ofNat 16 (w % 2 ^ nbits))) with
  | .ok (i, _) => some i
  | .error _ => none

/-- A register index as the nibble that encodes it (R101). -/
def regNibble (r : Reg) : BitVec 4 := BitVec.ofNat 4 r.val

/-- Format A of R102. -/
def formatA (f : BitVec 4) (nnn : BitVec 12) : Word := f ++ nnn

/-- Formats XB and Xff of R102. -/
def formatXB (f : BitVec 4) (x : Reg) (nn : Byte) : Word := f ++ (regNibble x ++ nn)

/-- Formats XYf and XYN of R102. -/
def formatXYN (f : BitVec 4) (x y : Reg) (n : BitVec 4) : Word := f ++ (regNibble x ++ (regNibble y ++ n))

/-- The word of an instruction, by the formats of R102 and the fixed fields of the table of R104. -/
def encode : Instr → Word
  | .cls => 0x00E0
  | .ret => 0x00EE
  | .jp nnn => formatA 0x1 nnn
  | .call nnn => formatA 0x2 nnn
  | .seByte x nn => formatXB 0x3 x nn
  | .sneByte x nn => formatXB 0x4 x nn
  | .seReg x y => formatXYN 0x5 x y 0x0
  | .ldByte x nn => formatXB 0x6 x nn
  | .addByte x nn => formatXB 0x7 x nn
  | .ldReg x y => formatXYN 0x8 x y 0x0
  | .orReg x y => formatXYN 0x8 x y 0x1
  | .andReg x y => formatXYN 0x8 x y 0x2
  | .xorReg x y => formatXYN 0x8 x y 0x3
  | .addReg x y => formatXYN 0x8 x y 0x4
  | .sub x y => formatXYN 0x8 x y 0x5
  | .shr x y => formatXYN 0x8 x y 0x6
  | .subn x y => formatXYN 0x8 x y 0x7
  | .shl x y => formatXYN 0x8 x y 0xE
  | .sneReg x y => formatXYN 0x9 x y 0x0
  | .ldI nnn => formatA 0xA nnn
  | .jpV0 nnn => formatA 0xB nnn
  | .rnd x nn => formatXB 0xC x nn
  | .drw x y n => formatXYN 0xD x y (BitVec.ofNat 4 n)
  | .skp x => formatXB 0xE x 0x9E
  | .sknp x => formatXB 0xE x 0xA1
  | .ldXDt x => formatXB 0xF x 0x07
  | .ldXK x => formatXB 0xF x 0x0A
  | .ldDtX x => formatXB 0xF x 0x15
  | .ldStX x => formatXB 0xF x 0x18
  | .addIX x => formatXB 0xF x 0x1E
  | .ldFX x => formatXB 0xF x 0x29
  | .ldBX x => formatXB 0xF x 0x33
  | .ldMemX x => formatXB 0xF x 0x55
  | .ldXMem x => formatXB 0xF x 0x65

/-- One row of the table of R104: the words of a form are those with `op &&& mask = pattern`. -/
structure OpcodeRow where
  mask    : Word
  pattern : Word
  deriving DecidableEq, Repr

/-- The row's test on a word ("the value of `op & mask` that selects it", R104). -/
def OpcodeRow.selects (r : OpcodeRow) (op : Word) : Bool := decide (op &&& r.mask = r.pattern)

/-- Each instruction's row of the table of R104, mask and match as the table has them. -/
def Instr.row : Instr → OpcodeRow
  | .cls => ⟨0xFFFF, 0x00E0⟩
  | .ret => ⟨0xFFFF, 0x00EE⟩
  | .jp _ => ⟨0xF000, 0x1000⟩
  | .call _ => ⟨0xF000, 0x2000⟩
  | .seByte _ _ => ⟨0xF000, 0x3000⟩
  | .sneByte _ _ => ⟨0xF000, 0x4000⟩
  | .seReg _ _ => ⟨0xF00F, 0x5000⟩
  | .ldByte _ _ => ⟨0xF000, 0x6000⟩
  | .addByte _ _ => ⟨0xF000, 0x7000⟩
  | .ldReg _ _ => ⟨0xF00F, 0x8000⟩
  | .orReg _ _ => ⟨0xF00F, 0x8001⟩
  | .andReg _ _ => ⟨0xF00F, 0x8002⟩
  | .xorReg _ _ => ⟨0xF00F, 0x8003⟩
  | .addReg _ _ => ⟨0xF00F, 0x8004⟩
  | .sub _ _ => ⟨0xF00F, 0x8005⟩
  | .shr _ _ => ⟨0xF00F, 0x8006⟩
  | .subn _ _ => ⟨0xF00F, 0x8007⟩
  | .shl _ _ => ⟨0xF00F, 0x800E⟩
  | .sneReg _ _ => ⟨0xF00F, 0x9000⟩
  | .ldI _ => ⟨0xF000, 0xA000⟩
  | .jpV0 _ => ⟨0xF000, 0xB000⟩
  | .rnd _ _ => ⟨0xF000, 0xC000⟩
  | .drw _ _ _ => ⟨0xF000, 0xD000⟩
  | .skp _ => ⟨0xF0FF, 0xE09E⟩
  | .sknp _ => ⟨0xF0FF, 0xE0A1⟩
  | .ldXDt _ => ⟨0xF0FF, 0xF007⟩
  | .ldXK _ => ⟨0xF0FF, 0xF00A⟩
  | .ldDtX _ => ⟨0xF0FF, 0xF015⟩
  | .ldStX _ => ⟨0xF0FF, 0xF018⟩
  | .addIX _ => ⟨0xF0FF, 0xF01E⟩
  | .ldFX _ => ⟨0xF0FF, 0xF029⟩
  | .ldBX _ => ⟨0xF0FF, 0xF033⟩
  | .ldMemX _ => ⟨0xF0FF, 0xF055⟩
  | .ldXMem _ => ⟨0xF0FF, 0xF065⟩

/-- One instruction of each form, in the table's order. -/
def oneOfEachForm : List Instr :=
  [.cls, .ret, .jp 0, .call 0, .seByte 0 0, .sneByte 0 0, .seReg 0 0, .ldByte 0 0, .addByte 0 0, .ldReg 0 0,
   .orReg 0 0, .andReg 0 0, .xorReg 0 0, .addReg 0 0, .sub 0 0, .shr 0 0, .subn 0 0, .shl 0 0, .sneReg 0 0] ++
  [.ldI 0, .jpV0 0, .rnd 0 0, .drw 0 0 0, .skp 0, .sknp 0, .ldXDt 0, .ldXK 0, .ldDtX 0, .ldStX 0, .addIX 0,
   .ldFX 0, .ldBX 0, .ldMemX 0, .ldXMem 0]

/-- The opcode table of R104 as data: 34 rows. -/
def opcodeTable : List OpcodeRow := oneOfEachForm.map Instr.row

end Sys2Proof
end

