-- ==== Sys2Proof/Config.lean ====
section
/-! DEFINITION. What is fixed for a run and is not state (R45): the named parameters of R17 to R22.
The values this hardware takes are in Sys2Proof/Machine/Hardware.lean. -/

namespace Sys2Proof

/-- `SHIFT_SOURCE`: which register 8XY6 and 8XYE shift (R17). -/
inductive ShiftSource where
  | vy
  | vx
  deriving DecidableEq, Repr

/-- `UNKNOWN_OPCODE_POLICY`: what an unrecognized opcode does (R18). -/
inductive UnknownOpcodePolicy where
  | fault
  | nop
  deriving DecidableEq, Repr

/-- `FONT_WRITE_POLICY`: what a data write to 0x000 to 0x04F does (R19). -/
inductive FontWritePolicy where
  | fault
  | allow
  deriving DecidableEq, Repr

/-- `FONT`: 16 glyphs of 5 bytes each, glyph d at addresses 5*d to 5*d+4 (R9, R20, R62). -/
abbrev Font := Vector (Vector Byte 5) 16

/-- The parameters of the step relation, fixed for a run (R45, and the table that ends 92_eei_decisions.md). -/
structure Config where
  shiftSource         : ShiftSource
  unknownOpcodePolicy : UnknownOpcodePolicy
  fontWritePolicy     : FontWritePolicy
  font                : Font
  /-- `TIMER_HZ`: nominal only. No rule of the model depends on it (R21): the model counts TIMER_TICK events. -/
  timerHz             : Nat
  deriving DecidableEq, Repr

/-- The `rnd` input port (R22, R212, D21): the byte that the n-th draw of a CXNN samples.
A FREE VALUE: it has no body, so nothing can be proved about a draw but what holds of every byte (log entry 1). -/
opaque Config.rnd : Nat → Byte

end Sys2Proof
end

