-- ==== Sys2Proof/Machine/Hardware.lean ====
section
/-! DEFINITION. The values this hardware gives the parameters of Sys2Proof/Config.lean (92_eei_decisions.md, last table). -/

namespace Sys2Proof

/-- The bytes of the built-in font, a row per digit: the table of R63 (D22). -/
def Config.conventionalFont : Font :=
  #v[#v[0xF0, 0x90, 0x90, 0x90, 0xF0],
     #v[0x20, 0x60, 0x20, 0x20, 0x70],
     #v[0xF0, 0x10, 0xF0, 0x80, 0xF0],
     #v[0xF0, 0x10, 0xF0, 0x10, 0xF0],
     #v[0x90, 0x90, 0xF0, 0x10, 0x10],
     #v[0xF0, 0x80, 0xF0, 0x10, 0xF0],
     #v[0xF0, 0x80, 0xF0, 0x90, 0xF0],
     #v[0xF0, 0x10, 0x20, 0x40, 0x40],
     #v[0xF0, 0x90, 0xF0, 0x90, 0xF0],
     #v[0xF0, 0x90, 0xF0, 0x10, 0xF0],
     #v[0xF0, 0x90, 0xF0, 0x90, 0x90],
     #v[0xE0, 0x90, 0xE0, 0x90, 0xE0],
     #v[0xF0, 0x80, 0x80, 0x80, 0xF0],
     #v[0xE0, 0x90, 0x90, 0x90, 0xE0],
     #v[0xF0, 0x80, 0xF0, 0x80, 0xF0],
     #v[0xF0, 0x80, 0xF0, 0x80, 0x80]]

/-- This hardware: `SHIFT_SOURCE` = `VY` (R17), `UNKNOWN_OPCODE_POLICY` = `FAULT` (R18), `FONT_WRITE_POLICY` = `FAULT`
(R19), the font of R63 (R20) and 60 Hz (R21). -/
def Config.hardware : Config where
  shiftSource := .vy
  unknownOpcodePolicy := .fault
  fontWritePolicy := .fault
  font := Config.conventionalFont
  timerHz := 60

end Sys2Proof
end

