-- ==== Sys2Proof/Machine/State.lean ====
section
/-! DEFINITION. The state of the core (10_state.md), the host's schedule of events, and the state after RESET (R47). -/

namespace Sys2Proof.Machine

/-- `FAULT_CAUSE`: the causes of R301, with the spec's names. -/
inductive FaultCause where
  /-- No fault: the value held while not halted. -/
  | none
  /-- A fetch at p with p + 1 > 0xFFF (R133). -/
  | fetchRange
  /-- A data address I + k > 0xFFF (R64, R65). -/
  | memRange
  /-- A push with SP = 16 (R180). -/
  | stackOverflow
  /-- A pop with SP = 0 (R181). -/
  | stackUnderflow
  /-- An unrecognized word under `UNKNOWN_OPCODE_POLICY` = `FAULT` (R135). -/
  | unknownOpcode
  /-- A data write into 0x000 to 0x04F under `FONT_WRITE_POLICY` = `FAULT` (R65). -/
  | fontWrite
  deriving DecidableEq, Repr

/-- The fault record of R42. -/
structure FaultRecord where
  cause       : FaultCause
  opcode      : Word
  opcodeValid : Bool
  pc          : Word
  deriving DecidableEq, Repr

/-- `MODE` of R41. The register that `AWAIT_KEY` names is the field `awaitTarget` of `State`. -/
inductive Mode where
  | running
  | awaitKey
  | halted
  deriving DecidableEq, Repr

/-- The result code of a LOAD (R79, R307; LOAD_OK = 0, LOAD_TOO_LARGE = 1 by R318). -/
inductive LoadResult where
  | ok
  | tooLarge
  deriving DecidableEq, Repr

/-- The host's events, all six of R306. Key codes are 4 bits wide (R318). -/
inductive HostEvent where
  | step
  | timerTick
  | keyDown (k : Fin 16)
  | keyUp (k : Fin 16)
  | reset
  | load (bytes : List Byte)
  deriving DecidableEq, Repr

/-- Memory as a list of (address, byte) pairs in one canonical form (`Memory.wf`); an unlisted address reads as
`Memory.background` (its reset contents, R47). -/
abbrev Memory := List Host.Cell

/-- `FB`: 32 rows of 64 single-bit pixels, `fb[r][c]` the pixel at row r and column c (R39). -/
abbrev FrameBuffer := Vector (Vector Bool 64) 32

/-- The state of the machine. The first thirteen fields are the state the spec gives the core (R30 to R46); the next two
are its output strobes (R164, R318); the last two are the MODEL's own: what of the environment the step reads. -/
structure State where
  /-- `V[0]` to `V[15]` (R30); `V[15]` is VF (R31). -/
  v           : Vector Byte 16
  /-- `I`, the index register (R33). -/
  i           : Word
  /-- `pc` (R34): the address of the instruction being executed. -/
  pc          : Word
  /-- `S[0]` to `S[15]` (R36). -/
  stack       : Vector Word 16
  /-- `SP`, from 0 to 16: the number of valid entries (R36). -/
  sp          : Fin 17
  /-- `DT`, the delay timer (R37). -/
  dt          : Byte
  /-- `ST`, the sound timer (R38). -/
  st          : Byte
  /-- `FB`, the display buffer (R39). -/
  fb          : FrameBuffer
  /-- `KEYS`: the held keys (R40). -/
  keys        : Vector Bool 16
  /-- `MODE` (R41). -/
  mode        : Mode
  /-- `AWAIT_TARGET` (R41): read only while `MODE` is `AWAIT_KEY`. -/
  awaitTarget : Reg
  /-- `FAULT_CAUSE`, `FAULT_OPCODE`, `FAULT_OPCODE_VALID`, `FAULT_PC` (R42). -/
  fault       : FaultRecord
  /-- `mem[0x000..0xFFF]` (R46, R60). -/
  mem         : Memory
  /-- The output strobe `fb_changed` of the last completed event (R164). -/
  fbChanged   : Bool
  /-- The LOAD result of the last completed event; none if that event was not a LOAD (R48, R318). -/
  loadResult  : Option LoadResult
  /-- MODEL's own: how many bytes CXNN has drawn from the `rnd` port; selects the free value of the next draw. -/
  rndDraws    : Nat
  /-- MODEL's own: the events the host applies next, first one first; when it is empty the host applies STEP (R306). -/
  schedule    : List HostEvent
  deriving DecidableEq, Repr

/-- The stops of a step that leave no state. There are none: every error of this core is the fatal program error that
R300 to R302 describe, and its whole effect is a next state (`MODE` = `HALTED` and the fault record written). -/
inductive Fault where
  deriving DecidableEq, Repr

/-- Why the model declines to give a meaning. -/
inductive Refusal where
  /-- Raised by an arm of `exec` for an instruction that has no meaning yet, and by nothing else. No arm raises it now.
  Safe: the run stops and nothing can be proved of it. -/
  | notModelled (mnemonic : String)
  deriving DecidableEq, Repr

/-- An all-clear display buffer (R39, R161). -/
def FrameBuffer.blank : FrameBuffer := Vector.replicate 32 (Vector.replicate 64 false)

/-- The fault record after RESET (R42, R47). -/
def FaultRecord.clear : FaultRecord := { cause := .none, opcode := 0, opcodeValid := false, pc := 0 }

/-- The machine right after RESET, every field as the table of R47. No cell is listed: memory reads as its reset
contents, the font and zeros. -/
def State.reset : State where
  v := Vector.replicate 16 0
  i := 0
  pc := 0x200
  stack := Vector.replicate 16 0
  sp := 0
  dt := 0
  st := 0
  fb := FrameBuffer.blank
  keys := Vector.replicate 16 false
  mode := .running
  awaitTarget := 0
  fault := FaultRecord.clear
  mem := []
  fbChanged := false
  loadResult := none
  rndDraws := 0
  schedule := []

end Sys2Proof.Machine
end

