-- ==== Sys2Proof/Machine/Ops.lean ====
section
/-! DEFINITION. The named operations over memory, registers, pc and call stack, and the one exception of the core:
entry into `HALTED` (R302). There is no return from it beside it: "There is no trap return" (R309); only the RESET event
leaves `HALTED` (Machine/Events.lean). -/

namespace Sys2Proof.Machine

/-- What a step, and each instruction, answers. -/
abbrev Outcome := Host.Outcome State Fault Refusal

/-! ### Memory (20_memory.md) -/

/-- What an unlisted address reads as: the reset contents of R47, the font at 0x000 to 0x04F (R62: glyph d at 5*d) and
0x00 everywhere else. -/
def Memory.background (c : Config) (a : Nat) : Byte :=
  if h : a < 80 then (c.font[a / 5]'(by omega))[a % 5]'(by omega) else 0

/-- The byte at an address; the range check is `checkRead`'s (R64). -/
def Memory.read (c : Config) : Memory → Nat → Byte
  | [], a => Memory.background c a
  | (b, w) :: rest, a => if a = b then w else Memory.read c rest a

/-- Memory without an entry for an address. -/
def Memory.erase (m : Memory) (a : Nat) : Memory := m.filter (fun e => decide (e.1 ≠ a))

/-- Memory with an entry added in front of the first larger address. -/
def Memory.insert : Memory → Nat → Byte → Memory
  | [], a, w => [(a, w)]
  | (b, u) :: rest, a, w => if a < b then (a, w) :: (b, u) :: rest else (b, u) :: Memory.insert rest a w

/-- Write one byte (R65, after its checks), keeping the canonical form: the value an unlisted address reads as is not
listed. -/
def Memory.write (c : Config) (m : Memory) (a : Nat) (w : Byte) : Memory :=
  if w = Memory.background c a then m.erase a else (m.erase a).insert a w

/-- The canonical form: addresses strictly rising and inside 0x000 to 0xFFF, and no entry equal to what an unlisted
address reads as. Equal memories are then equal lists. -/
def Memory.wf (c : Config) (m : Memory) : Bool :=
  decide (m.Pairwise (fun e f => e.1 < f.1)) &&
    m.all (fun e => decide (e.1 ≤ 0xFFF) && decide (e.2 ≠ Memory.background c e.1))

/-- `CheckRead(a)` of R64. -/
def checkRead (a : Nat) : Option FaultCause := if a > 0xFFF then some .memRange else none

/-- `CheckWrite(a)` of R65: the range first, then the font region. -/
def checkWrite (c : Config) (a : Nat) : Option FaultCause :=
  if a > 0xFFF then some .memRange
  else if a ≤ 0x04F ∧ c.fontWritePolicy = .fault then some .fontWrite
  else none

/-- The addresses base, base+1, … of `n` bytes, ascending and without wrap (R66, R230). -/
def addressSpan (base n : Nat) : List Nat := (List.range n).map (base + ·)

/-- The byte of memory at an address. -/
def State.readMem (c : Config) (s : State) (a : Nat) : Byte := Memory.read c s.mem a

/-- The byte of memory of this hardware at an address: the one byte read in which statements speak of memory. -/
def State.byteAt (s : State) (a : Nat) : Byte := s.readMem Config.hardware a

/-- One byte of memory written; the checks of R65 have been made. -/
def State.writeMem (c : Config) (a : Nat) (w : Byte) (s : State) : State := { s with mem := s.mem.write c a w }

/-- `len` bytes written from `base` upward, in ascending order. -/
def State.writeBytes (c : Config) (base : Nat) (ws : List Byte) (s : State) : State :=
  { s with mem := ws.zipIdx.foldl (fun m e => m.write c (base + e.2) e.1) s.mem }

/-! ### Registers -/

/-- `V[r]` (R24, R30). No register is hard-wired. -/
def State.getV (s : State) (r : Reg) : Byte := s.v[r]

/-- `V[r] <- w` (R24, R30). -/
def State.setV (r : Reg) (w : Byte) (s : State) : State := { s with v := s.v.set r w }

/-- VF, the flag register: V[15] (R31). -/
def vF : Reg := 15

/-- Write the result first and the flag last, so that with X = 0xF VF holds the flag (R137, D5). -/
def State.setVFlag (x : Reg) (result flag : Byte) (s : State) : State := (s.setV x result).setV vF flag

/-- `I <- w` (R33). -/
def State.setI (w : Word) (s : State) : State := { s with i := w }

/-! ### Program counter (R136) -/

/-- `pc <- target`. -/
def State.setPc (target : Word) (s : State) : State := { s with pc := target }

/-- `pc <- NEXT`, `u16(p + 2)`. -/
def State.toNext (s : State) : State := s.setPc (s.pc + 2)

/-- `pc <- SKIP`, `u16(p + 4)`. -/
def State.toSkip (s : State) : State := s.setPc (s.pc + 4)

/-- The end of a conditional skip: `if b: pc <- SKIP else pc <- NEXT` (R185 to R188, R250, R251). -/
def State.skipIf (b : Bool) (s : State) : State := if b then s.toSkip else s.toNext

/-! ### Call stack -/

/-- `Push(v)` of R180. -/
def push (w : Word) (s : State) : Except FaultCause State :=
  if h : s.sp.val < 16 then
    .ok { s with stack := s.stack.set s.sp.val w h, sp := ⟨s.sp.val + 1, by omega⟩ }
  else .error .stackOverflow

/-- `Pop()` of R181; the popped slot keeps its value. -/
def pop (s : State) : Except FaultCause (Word × State) :=
  if h : s.sp.val = 0 then .error .stackUnderflow
  else .ok (s.stack[s.sp.val - 1]'(by omega), { s with sp := ⟨s.sp.val - 1, by omega⟩ })

/-! ### The fatal program error (60_exceptions.md) -/

/-- `raise Fatal(cause)` of R302, at the pc and with the opcode of the instruction: `MODE` and the fault record are
written and nothing else. With FETCH_RANGE there is no opcode. -/
def State.enterHalt (cause : FaultCause) (op : Word) (s : State) : State :=
  { s with
    mode := .halted
    fault :=
      { cause := cause
        opcode := if cause = .fetchRange then 0 else op
        opcodeValid := decide (cause ≠ .fetchRange)
        pc := s.pc } }

/-- The end of an instruction: its result, or from the state it found the entry into `HALTED` with the cause its checks
gave (R138: checks first, so a fault keeps none of the instruction's writes). -/
def conclude (i : Instr) (s : State) : Except FaultCause State → Outcome
  | .ok t => .next t
  | .error cause => .next (s.enterHalt cause (encode i))

/-- Run the checks of several addresses in the order given; the first that fails is the cause (R65, R305). -/
def checked (chk : Nat → Option FaultCause) (addresses : List Nat) (t : State) : Except FaultCause State :=
  match addresses.findSome? chk with
  | some cause => .error cause
  | none => .ok t

end Sys2Proof.Machine
end

