-- ==== Sys2Proof/Machine/Operands.lean ====
section
/-! DEFINITION. The operand forms (R103, R230): immediates, registers, the shifted operand, and the memory operand at
I + k. Every operand is read before anything is written (R137): each meaning computes from the state it is given. -/

namespace Sys2Proof.Machine

/-- `zext_16(NNN)` (R103). -/
def zextAddr (nnn : BitVec 12) : Word := nnn.setWidth 16

/-- `zext_16` of a byte (R23). -/
def zextByte (b : Byte) : Word := b.setWidth 16

/-- The target of BNNN: `u16(zext_16(V[0]) + zext_16(NNN))`; the register is always V0 (R103, R189). -/
def jumpV0Target (nnn : BitVec 12) (s : State) : Word := zextByte (s.getV 0) + zextAddr nnn

/-- The operand of 8XY6 and 8XYE: V[Y] or V[X] by `SHIFT_SOURCE` (R209, R211). -/
def shiftOperand (c : Config) (x y : Reg) (s : State) : Byte :=
  match c.shiftSource with
  | .vy => s.getV y
  | .vx => s.getV x

/-- The address of the first byte a memory instruction touches: I, as an unbounded integer (R66, R230). -/
def memBase (s : State) : Nat := s.i.toNat

/-- The registers V[0] to V[X], ascending: what FX55 stores and FX65 loads (R235, R236). -/
def regsUpTo (x : Reg) : List Reg := (List.range (x.val + 1)).map (Fin.ofNat 16)

/-- Whether the key whose code is V[X] is held: `k <= 15 and KEYS[k] = 1` (R250, R251). -/
def keyHeld (x : Reg) (s : State) : Bool :=
  if h : (s.getV x).toNat < 16 then s.keys[(s.getV x).toNat] else false

/-- The three decimal digits of a byte, hundreds first (R234). -/
def decimalDigits (b : Byte) : List Byte :=
  [BitVec.ofNat 8 (b.toNat / 100), BitVec.ofNat 8 (b.toNat / 10 % 10), BitVec.ofNat 8 (b.toNat % 10)]

end Sys2Proof.Machine
end

