-- ==== Sys2Proof/Machine/Flags.lean ====
section
/-! DEFINITION. Every flag the ISA computes into VF (R31, R200): carry, not-borrow, the bit shifted out, collision. Each is
1 or 0. -/

namespace Sys2Proof.Machine

/-- A flag as the byte that VF holds. -/
def flagByte (b : Bool) : Byte := if b then 1 else 0

/-- Carry of 8XY4: 1 exactly when the exact sum exceeds 255 (R207). -/
def carryFlag (a b : Byte) : Byte := flagByte (decide (a.toNat + b.toNat > 255))

/-- Not-borrow of 8XY5 and 8XY7: 1 exactly when minuend >= subtrahend (R208, R210). -/
def notBorrowFlag (minuend subtrahend : Byte) : Byte := flagByte (decide (minuend.toNat ≥ subtrahend.toNat))

/-- The bit 8XY6 shifts out: bit 0 of the operand (R209). -/
def shiftedOutLow (a : Byte) : Byte := a &&& 1

/-- The bit 8XYE shifts out: bit 7 of the operand (R211). -/
def shiftedOutHigh (a : Byte) : Byte := (a >>> 7) &&& 1

/-- The collision flag of DXYN (R163). -/
def collisionFlag (collide : Bool) : Byte := flagByte collide

end Sys2Proof.Machine
end

