-- ==== Sys2Proof/Machine/Alu.lean ====
section
/-! DEFINITION. The register and arithmetic family (43_alu.md). Results wrap modulo 256 (R140, R200); where a flag is
defined it is written last (R137). -/

namespace Sys2Proof.Machine

/-- 6XNN `LD Vx, nn` (R201). -/
def execLdByte (x : Reg) (nn : Byte) (s : State) : Outcome := .next (s.setV x nn).toNext

/-- 7XNN `ADD Vx, nn` (R202): no flag. -/
def execAddByte (x : Reg) (nn : Byte) (s : State) : Outcome := .next (s.setV x (s.getV x + nn)).toNext

/-- 8XY0 `LD Vx, Vy` (R203). -/
def execLdReg (x y : Reg) (s : State) : Outcome := .next (s.setV x (s.getV y)).toNext

/-- 8XY1 `OR Vx, Vy` (R204): no flag. -/
def execOr (x y : Reg) (s : State) : Outcome := .next (s.setV x (s.getV x ||| s.getV y)).toNext

/-- 8XY2 `AND Vx, Vy` (R205): no flag. -/
def execAnd (x y : Reg) (s : State) : Outcome := .next (s.setV x (s.getV x &&& s.getV y)).toNext

/-- 8XY3 `XOR Vx, Vy` (R206): no flag. -/
def execXor (x y : Reg) (s : State) : Outcome := .next (s.setV x (s.getV x ^^^ s.getV y)).toNext

/-- 8XY4 `ADD Vx, Vy` (R207). -/
def execAddReg (x y : Reg) (s : State) : Outcome :=
  .next (s.setVFlag x (s.getV x + s.getV y) (carryFlag (s.getV x) (s.getV y))).toNext

/-- 8XY5 `SUB Vx, Vy` (R208). -/
def execSub (x y : Reg) (s : State) : Outcome :=
  .next (s.setVFlag x (s.getV x - s.getV y) (notBorrowFlag (s.getV x) (s.getV y))).toNext

/-- 8XY6 with the parameters as an argument (R209): a logical shift. -/
def shiftRight (c : Config) (x y : Reg) (s : State) : Outcome :=
  .next (s.setVFlag x (shiftOperand c x y s >>> 1) (shiftedOutLow (shiftOperand c x y s))).toNext

/-- 8XY6 `SHR Vx, Vy` (R209). -/
def execShr (x y : Reg) (s : State) : Outcome := shiftRight Config.hardware x y s

/-- 8XY7 `SUBN Vx, Vy` (R210). -/
def execSubn (x y : Reg) (s : State) : Outcome :=
  .next (s.setVFlag x (s.getV y - s.getV x) (notBorrowFlag (s.getV y) (s.getV x))).toNext

/-- 8XYE with the parameters as an argument (R211). -/
def shiftLeft (c : Config) (x y : Reg) (s : State) : Outcome :=
  .next (s.setVFlag x (shiftOperand c x y s <<< 1) (shiftedOutHigh (shiftOperand c x y s))).toNext

/-- 8XYE `SHL Vx, Vy` (R211). -/
def execShl (x y : Reg) (s : State) : Outcome := shiftLeft Config.hardware x y s

/-- The effect of CXNN when the `rnd` port presents the byte `rnd` (R212); the draw is counted. -/
def drawRandom (rnd : Byte) (x : Reg) (nn : Byte) (s : State) : State :=
  (State.setV x (rnd &&& nn) { s with rndDraws := s.rndDraws + 1 }).toNext

/-- CXNN `RND Vx, nn` (R212): each execution draws a fresh byte, a free value (D21). -/
def execRnd (x : Reg) (nn : Byte) (s : State) : Outcome := .next (drawRandom (Config.rnd s.rndDraws) x nn s)

end Sys2Proof.Machine
end

