-- ==== Sys2Proof/Machine/Control.lean ====
section
/-! DEFINITION. The control-transfer family (42_control.md). -/

namespace Sys2Proof.Machine

/-- 00EE `RET` (R182): the popped address is the pc, and pc is not then advanced. -/
def execRet (s : State) : Outcome :=
  conclude .ret s ((pop s).map (fun p => p.2.setPc p.1))

/-- 1NNN `JP nnn` (R183). -/
def execJp (nnn : BitVec 12) (s : State) : Outcome := .next (s.setPc (zextAddr nnn))

/-- 2NNN `CALL nnn` (R184). -/
def execCall (nnn : BitVec 12) (s : State) : Outcome :=
  conclude (.call nnn) s ((push (s.pc + 2) s).map (State.setPc (zextAddr nnn)))

/-- 3XNN `SE Vx, nn` (R185). -/
def execSeByte (x : Reg) (nn : Byte) (s : State) : Outcome := .next (s.skipIf (s.getV x == nn))

/-- 4XNN `SNE Vx, nn` (R186). -/
def execSneByte (x : Reg) (nn : Byte) (s : State) : Outcome := .next (s.skipIf (s.getV x != nn))

/-- 5XY0 `SE Vx, Vy` (R187). -/
def execSeReg (x y : Reg) (s : State) : Outcome := .next (s.skipIf (s.getV x == s.getV y))

/-- 9XY0 `SNE Vx, Vy` (R188). -/
def execSneReg (x y : Reg) (s : State) : Outcome := .next (s.skipIf (s.getV x != s.getV y))

/-- BNNN `JP V0, nnn` (R189). -/
def execJpV0 (nnn : BitVec 12) (s : State) : Outcome := .next (s.setPc (jumpV0Target nnn s))

end Sys2Proof.Machine
end

