-- ==== Sys2Proof/Machine/Display.lean ====
section
/-! DEFINITION. The display family (41_display.md): 00E0, DXYN and the framebuffer's write port. -/

namespace Sys2Proof.Machine

/-- The pixel a coordinate names: both axes wrap (R160). -/
def FrameBuffer.pixel (fb : FrameBuffer) (r c : Nat) : Bool :=
  (fb[r % 32]'(Nat.mod_lt r (by decide)))[c % 64]'(Nat.mod_lt c (by decide))

/-- One pixel written, both axes wrapping (R160). -/
def FrameBuffer.setPixel (fb : FrameBuffer) (r c : Nat) (b : Bool) : FrameBuffer :=
  fb.set (r % 32) ((fb[r % 32]'(Nat.mod_lt r (by decide))).set (c % 64) b (Nat.mod_lt c (by decide)))
    (Nat.mod_lt r (by decide))

/-- The sprite bit of column c of a row: most-significant bit first, `(row >> (7 - c)) & 1` (R162). -/
def spriteBit (row : Byte) (c : Nat) : Bool := row.getLsbD (7 - c)

/-- One pixel of the blit: a sprite bit of 1 inverts the pixel, and hits a collision if the pixel was 1 (R162, R163). -/
def blitPixel (r c : Nat) (bit : Bool) (acc : FrameBuffer × Bool) : FrameBuffer × Bool :=
  if bit then (acc.1.setPixel r c (!acc.1.pixel r c), acc.2 || acc.1.pixel r c) else acc

/-- One sprite row: its 8 columns from left to right (R162). -/
def blitRow (r x0 : Nat) (row : Byte) (acc : FrameBuffer × Bool) : FrameBuffer × Bool :=
  (List.range 8).foldl (fun a c => blitPixel r (x0 + c) (spriteBit row c) a) acc

/-- The XOR blit of a sprite's rows, top to bottom, with its collision bit (R162). -/
def blit (rows : List Byte) (x0 y0 : Nat) (fb : FrameBuffer) : FrameBuffer × Bool :=
  rows.zipIdx.foldl (fun acc e => blitRow (y0 + e.2) x0 e.1 acc) (fb, false)

/-- 00E0 `CLS` (R161); `fb_changed` pulses (R164). -/
def execCls (s : State) : Outcome :=
  .next { s with fb := FrameBuffer.blank, fbChanged := true, pc := s.pc + 2 }

/-- The sprite bytes a DXYN reads: N bytes from I upward (R162). -/
def spriteRows (c : Config) (n : Nat) (s : State) : List Byte :=
  (addressSpan (memBase s) n).map (s.readMem c)

/-- The body of DXYN once its reads have passed their checks (R162): the blit at column V[X] and row V[Y], then VF, then
pc; `fb_changed` pulses even if no pixel changes (R164). -/
def drawSprite (c : Config) (x y : Reg) (n : Nat) (s : State) : State :=
  let drawn := blit (spriteRows c n s) (s.getV x).toNat (s.getV y).toNat s.fb
  (State.setV vF (collisionFlag drawn.2) { s with fb := drawn.1, fbChanged := true }).toNext

/-- DXYN with the parameters as an argument (R162): every sprite byte is checked before any pixel changes. -/
def drw (c : Config) (x y : Reg) (n : Nat) (s : State) : Outcome :=
  conclude (.drw x y n) s (checked checkRead (addressSpan (memBase s) n) (drawSprite c x y n s))

/-- DXYN `DRW Vx, Vy, n` (R162). -/
def execDrw (x y : Reg) (n : Nat) (s : State) : Outcome := drw Config.hardware x y n s

end Sys2Proof.Machine
end

