-- ==== Sys2Proof/Machine/IndexMemory.lean ====
section
/-! DEFINITION. The index-register and memory family (44_index_memory.md). Every address is checked before the first
write (R138). -/

namespace Sys2Proof.Machine

/-- ANNN `LD I, nnn` (R231). -/
def execLdI (nnn : BitVec 12) (s : State) : Outcome := .next (s.setI (zextAddr nnn)).toNext

/-- FX1E `ADD I, Vx` (R232): modulo 2^16, no flag. -/
def execAddIX (x : Reg) (s : State) : Outcome := .next (s.setI (s.i + zextByte (s.getV x))).toNext

/-- FX29 `LD F, Vx` (R233): V[X] is not masked. -/
def execLdFX (x : Reg) (s : State) : Outcome := .next (s.setI (zextByte (s.getV x) * 5)).toNext

/-- FX33 with the parameters as an argument (R234). -/
def storeDecimal (c : Config) (x : Reg) (s : State) : Outcome :=
  conclude (.ldBX x) s (checked (checkWrite c) (addressSpan (memBase s) 3)
    (s.writeBytes c (memBase s) (decimalDigits (s.getV x))).toNext)

/-- FX33 `LD B, Vx` (R234). -/
def execLdBX (x : Reg) (s : State) : Outcome := storeDecimal Config.hardware x s

/-- `I <- u16(base + X + 1)`: the increment uses the X field (R235, R236). -/
def State.advanceI (x : Reg) (s : State) : State := s.setI (s.i + BitVec.ofNat 16 (x.val + 1))

/-- FX55 with the parameters as an argument (R235). -/
def storeRegs (c : Config) (x : Reg) (s : State) : Outcome :=
  conclude (.ldMemX x) s (checked (checkWrite c) (addressSpan (memBase s) (x.val + 1))
    ((s.writeBytes c (memBase s) ((regsUpTo x).map s.getV)).advanceI x).toNext)

/-- FX55 `LD [I], Vx` (R235). -/
def execLdMemX (x : Reg) (s : State) : Outcome := storeRegs Config.hardware x s

/-- FX65 with the parameters as an argument (R236). -/
def loadRegs (c : Config) (x : Reg) (s : State) : Outcome :=
  conclude (.ldXMem x) s (checked checkRead (addressSpan (memBase s) (x.val + 1))
    (((regsUpTo x).foldl (fun t r => t.setV r (s.readMem c (memBase s + r.val))) s).advanceI x).toNext)

/-- FX65 `LD Vx, [I]` (R236). -/
def execLdXMem (x : Reg) (s : State) : Outcome := loadRegs Config.hardware x s

end Sys2Proof.Machine
end

