-- ==== Sys2Proof/Machine/TimerInput.lean ====
section
/-! DEFINITION. The key and timer family (45_timer_input.md). -/

namespace Sys2Proof.Machine

/-- EX9E `SKP Vx` (R250). -/
def execSkp (x : Reg) (s : State) : Outcome := .next (s.skipIf (keyHeld x s))

/-- EXA1 `SKNP Vx` (R251). -/
def execSknp (x : Reg) (s : State) : Outcome := .next (s.skipIf (!keyHeld x s))

/-- FX07 `LD Vx, DT` (R252). -/
def execLdXDt (x : Reg) (s : State) : Outcome := .next (s.setV x s.dt).toNext

/-- FX0A `LD Vx, K` (R253): enter the wait; pc is already the next instruction's. KEY_DOWN ends it (`keyDown`, R315). -/
def execLdXK (x : Reg) (s : State) : Outcome :=
  .next (State.toNext { s with awaitTarget := x, mode := .awaitKey })

/-- FX15 `LD DT, Vx` (R254). -/
def execLdDtX (x : Reg) (s : State) : Outcome := .next (State.toNext { s with dt := s.getV x })

/-- FX18 `LD ST, Vx` (R255). -/
def execLdStX (x : Reg) (s : State) : Outcome := .next (State.toNext { s with st := s.getV x })

end Sys2Proof.Machine
end

