-- ==== Sys2Proof/Machine/Events.lean ====
section
/-! DEFINITION. The host's events other than STEP (60_exceptions.md, R79, R350). Each is one atomic transition (R306). -/

namespace Sys2Proof.Machine

/-- A timer brought one nearer to 0, and left at 0 (R311). -/
def countdown (t : Byte) : Byte := if t.toNat > 0 then t - 1 else t

/-- TIMER_TICK (R311): both timers, in every mode but `HALTED`. -/
def timerTick (s : State) : State :=
  match s.mode with
  | .halted => s
  | .running | .awaitKey => { s with dt := countdown s.dt, st := countdown s.st }

/-- KEY_DOWN(k) (R315): the key is held in every mode; a wait ends with its code in V[AWAIT_TARGET]. -/
def keyDown (k : Fin 16) (s : State) : State :=
  match s.mode with
  | .awaitKey =>
    State.setV s.awaitTarget (BitVec.ofNat 8 k.val) { s with keys := s.keys.set k true, mode := .running }
  | .running | .halted => { s with keys := s.keys.set k true }

/-- KEY_UP(k) (R316), in every mode. -/
def keyUp (k : Fin 16) (s : State) : State := { s with keys := s.keys.set k false }

/-- RESET (R350): everything at its value of R47. The two fields that are the environment's stay: the host's further
events, and the count of draws (a RESET does not make the `rnd` port repeat itself). -/
def resetEvent (s : State) : State := { State.reset with rndDraws := s.rndDraws, schedule := s.schedule }

/-- `PROG_BASE` (R10). -/
def progBase : Nat := 0x200

/-- `MAX_PROG_LEN` (R10). -/
def maxProgLen : Nat := 0xE00

/-- LOAD(b) (R79, R307): the bytes from 0x200 upward and nothing else, or a refusal that changes no state. -/
def loadEvent (c : Config) (b : List Byte) (s : State) : State :=
  if b.length > maxProgLen then { s with loadResult := some .tooLarge }
  else { s.writeBytes c progBase b with loadResult := some .ok }

end Sys2Proof.Machine
end

