-- ==== Sys2Proof/Machine/Engine.lean ====
section
/-! DEFINITION. The fetch/decode/execute engine (40_engine.md) and the application of the host's events (R306), with the
parameters of R45 as arguments. Machine/Step.lean makes the one machine of this hardware from it. -/

namespace Sys2Proof.Machine

/-- `Fetch(p)` of R133: the big-endian word at pc and pc + 1, or none if pc + 1, computed without wrap, is above 0xFFF. -/
def fetch (c : Config) (s : State) : Option Word :=
  if s.pc.toNat + 1 > 0xFFF then none
  else some (wordOfBytes (s.readMem c s.pc.toNat) (s.readMem c (s.pc.toNat + 1)))

/-- Executing UNKNOWN with opcode `op` (R135). -/
def unknownOpcode (c : Config) (op : Word) (s : State) : Outcome :=
  match c.unknownOpcodePolicy with
  | .fault => .next (s.enterHalt .unknownOpcode op)
  | .nop => .next s.toNext

/-- STEP while `MODE` = `RUNNING` (R130): fetch, decode, execute. -/
def stepRunning (c : Config) (ex : Instr → State → Outcome) (s : State) : Outcome :=
  match fetch c s with
  | none => .next (s.enterHalt .fetchRange 0)
  | some op =>
    match decodeWord op with
    | .ok i => ex i s
    | .error _ => unknownOpcode c op s

/-- The STEP event (R130, R131, R132). -/
def stepEvent (c : Config) (ex : Instr → State → Outcome) (s : State) : Outcome :=
  match s.mode with
  | .running => stepRunning c ex s
  | .awaitKey => .next s
  | .halted => .next s

/-- One event of the host applied to the core (R306). -/
def applyEvent (c : Config) (ex : Instr → State → Outcome) (e : HostEvent) (s : State) : Outcome :=
  match e with
  | .step => stepEvent c ex s
  | .timerTick => .next (timerTick s)
  | .keyDown k => .next (keyDown k s)
  | .keyUp k => .next (keyUp k s)
  | .reset => .next (resetEvent s)
  | .load b => .next (loadEvent c b s)

/-- The event the host applies next: the first of its schedule, and STEP when it has scheduled nothing. -/
def nextEvent (s : State) : HostEvent := s.schedule.headD .step

/-- The state as an event finds it: the event taken from the schedule, and the strobes of the event before it gone (R164:
`fb_changed` is 0 for every event that does not pulse it). -/
def State.beginEvent (s : State) : State :=
  { s with fbChanged := false, loadResult := none, schedule := s.schedule.tail }

/-- Apply the host's next event, with a given set of parameters and a given meaning of instructions. -/
def advance (c : Config) (ex : Instr → State → Outcome) (s : State) : Outcome :=
  applyEvent c ex (nextEvent s) s.beginEvent

/-- The meaning of every instruction with the parameters as an argument (R17 to R20): `exec` is this at
`Config.hardware`. -/
def execWith (c : Config) (i : Instr) (s : State) : Outcome :=
  match i with
  | .cls => execCls s
  | .ret => execRet s
  | .jp nnn => execJp nnn s
  | .call nnn => execCall nnn s
  | .seByte x nn => execSeByte x nn s
  | .sneByte x nn => execSneByte x nn s
  | .seReg x y => execSeReg x y s
  | .ldByte x nn => execLdByte x nn s
  | .addByte x nn => execAddByte x nn s
  | .ldReg x y => execLdReg x y s
  | .orReg x y => execOr x y s
  | .andReg x y => execAnd x y s
  | .xorReg x y => execXor x y s
  | .addReg x y => execAddReg x y s
  | .sub x y => execSub x y s
  | .shr x y => shiftRight c x y s
  | .subn x y => execSubn x y s
  | .shl x y => shiftLeft c x y s
  | .sneReg x y => execSneReg x y s
  | .ldI nnn => execLdI nnn s
  | .jpV0 nnn => execJpV0 nnn s
  | .rnd x nn => execRnd x nn s
  | .drw x y n => drw c x y n s
  | .skp x => execSkp x s
  | .sknp x => execSknp x s
  | .ldXDt x => execLdXDt x s
  | .ldXK x => execLdXK x s
  | .ldDtX x => execLdDtX x s
  | .ldStX x => execLdStX x s
  | .addIX x => execAddIX x s
  | .ldFX x => execLdFX x s
  | .ldBX x => storeDecimal c x s
  | .ldMemX x => storeRegs c x s
  | .ldXMem x => loadRegs c x s

/-- The machine with other values of the parameters (R45): what the tests of those values and the rules that speak of
both values of a parameter are stated about. -/
def stepWith (c : Config) (s : State) : Outcome := advance c (execWith c) s

end Sys2Proof.Machine
end

