-- ==== Sys2Proof/Machine/Step.lean ====
section
/-! DEFINITION. The step of this hardware: one event of the host (Machine/Engine.lean), and the word placed where the next
STEP fetches. -/

namespace Sys2Proof.Machine

/-- One event applied to the core: the first of the host's schedule, and STEP, one instruction, when none is scheduled. -/
def step (s : State) : Host.Outcome State Fault Refusal := advance Config.hardware exec s

/-- `s` with the instruction word `w` stored at pc and pc + 1, high byte first, and with what lets the very next step
fetch it: no event scheduled before it, and `MODE` = `RUNNING`. It stands for the program that LOAD places (R79). At a
pc from which no fetch is possible (R133) there is no such place. -/
def State.withFetchWord (s : State) (nbits w : Nat) : State :=
  { s.writeBytes Config.hardware s.pc.toNat (bytesOfWord (BitVec.ofNat 16 (w % 2 ^ nbits))) with
    mode := .running, schedule := [] }

end Sys2Proof.Machine
end

