-- ==== Sys2Proof/Machine/Ports.lean ====
section
/-! DEFINITION. The core's output ports as functions of the state (R48, R318): STATUS, FAULT_OPCODE, FAULT_PC,
sound_active, and the render read port. The two strobes, fb_changed and the LOAD result, are the fields `fbChanged` and
`loadResult` of `State`. -/

namespace Sys2Proof.Machine

/-- The 3-bit code of a cause (R301). -/
def FaultCause.code : FaultCause → BitVec 3
  | .none => 0
  | .fetchRange => 1
  | .memRange => 2
  | .stackOverflow => 3
  | .stackUnderflow => 4
  | .unknownOpcode => 5
  | .fontWrite => 6

/-- The 2-bit code of a mode; 0b11 is never produced (R43). -/
def Mode.code : Mode → BitVec 2
  | .running => 0
  | .awaitKey => 1
  | .halted => 2

/-- `STATUS` (R43): reserved [15:10], FAULT_OPCODE_VALID [9], FAULT_CAUSE [8:6], AWAIT_TARGET [5:2], MODE [1:0]; a
field not meaningful in the present mode reads 0. -/
def State.status (s : State) : Word :=
  (0 : BitVec 6) ++
    ((if s.mode = .halted ∧ s.fault.opcodeValid then (1 : BitVec 1) else 0) ++
      ((if s.mode = .halted then s.fault.cause.code else 0) ++
        ((if s.mode = .awaitKey then BitVec.ofNat 4 s.awaitTarget.val else 0) ++ s.mode.code)))

/-- The `FAULT_OPCODE` port: 0 unless `MODE` is `HALTED` (R43). -/
def State.faultOpcodePort (s : State) : Word := if s.mode = .halted then s.fault.opcode else 0

/-- The `FAULT_PC` port: 0 unless `MODE` is `HALTED` (R43). -/
def State.faultPcPort (s : State) : Word := if s.mode = .halted then s.fault.pc else 0

/-- `sound_active` = (ST != 0), at all times (R313). -/
def State.soundActive (s : State) : Bool := s.st != 0

/-- The render port: read-only access to the whole of FB between events (R165). -/
def State.render (s : State) (r : Fin 32) (c : Fin 64) : Bool := s.fb.pixel r.val c.val

/-- The LOAD result port: LOAD_OK = 0, LOAD_TOO_LARGE = 1 (R318). -/
def LoadResult.code : LoadResult → BitVec 1
  | .ok => 0
  | .tooLarge => 1

end Sys2Proof.Machine
end

