-- ==== Sys2Proof/Safety.lean ====
section
/-! DEFINITION. The terms in which claims speak of runs: the parts of the state and what it is to change only some of
them, the invariant of the machine, and how a run ends (R362). -/

namespace Sys2Proof.Machine

/-- The parts of the state, each register, stack slot, key and byte of memory on its own. Together they are all of it. -/
inductive Part where
  | reg (r : Reg)
  | index
  | pc
  | stackSlot (j : Fin 16)
  | sp
  | delayTimer
  | soundTimer
  | display
  | key (k : Fin 16)
  | mode
  | awaitTarget
  | faultRecord
  | byte (a : Nat)
  | fbChanged
  | loadResult
  | rndDraws
  | schedule
  deriving DecidableEq, Repr

/-- A part holds the same in two states; memory is compared through the read of one byte, with the parameters `c`. -/
def Part.same (c : Config) (s t : State) : Part → Prop
  | .reg r => t.getV r = s.getV r
  | .index => t.i = s.i
  | .pc => t.pc = s.pc
  | .stackSlot j => t.stack[j] = s.stack[j]
  | .sp => t.sp = s.sp
  | .delayTimer => t.dt = s.dt
  | .soundTimer => t.st = s.st
  | .display => t.fb = s.fb
  | .key k => t.keys[k] = s.keys[k]
  | .mode => t.mode = s.mode
  | .awaitTarget => t.awaitTarget = s.awaitTarget
  | .faultRecord => t.fault = s.fault
  | .byte a => t.readMem c a = s.readMem c a
  | .fbChanged => t.fbChanged = s.fbChanged
  | .loadResult => t.loadResult = s.loadResult
  | .rndDraws => t.rndDraws = s.rndDraws
  | .schedule => t.schedule = s.schedule

/-- Going from `s` to `t`, every part outside the list is unchanged: every other register, every other byte of memory,
and so on. -/
def changesOnlyIn (c : Config) (parts : List Part) (s t : State) : Prop := ∀ p, p ∉ parts → p.same c s t

/-- `changesOnlyIn` with the parameters of this hardware. -/
def changesOnly (parts : List Part) (s t : State) : Prop := changesOnlyIn Config.hardware parts s t

/-- The bytes base, base+1, … of `n` addresses, as parts. -/
def bytesFrom (base n : Nat) : List Part := (addressSpan base n).map Part.byte

/-- The registers V[0] to V[X], as parts. -/
def regsThrough (x : Reg) : List Part := (regsUpTo x).map Part.reg

/-- The fault record that `raise Fatal(cause)` leaves, by the table of R301 and R302. -/
def fatalRecord (cause : FaultCause) (op pc : Word) : FaultRecord :=
  { cause := cause, opcode := op, opcodeValid := true, pc := pc }

/-- `t` is `s` halted with the record `r`, its pc and everything else as in `s` (R302, R138). -/
def haltedFrom (c : Config) (r : FaultRecord) (s t : State) : Prop :=
  t.mode = .halted ∧ t.fault = r ∧ changesOnlyIn c [.mode, .faultRecord] s t

/-- The word at pc as R67 and R133 give it: `(mem[pc] << 8) | mem[pc + 1]`. -/
def wordAtPc (c : Config) (s : State) : Word :=
  (zextByte (s.readMem c s.pc.toNat) <<< 8) ||| zextByte (s.readMem c (s.pc.toNat + 1))

/-- The encoding of a form in the table of R104: the word under the mask is the match. -/
def encodedBy (mask pattern : Word) (i : Instr) : Prop := encode i &&& mask = pattern

/-- The invariant of the machine: it rules out states that no run from RESET reaches. -/
structure State.Inv (s : State) : Prop where
  /-- Memory is in its canonical form and inside 0x000 to 0xFFF (R60). -/
  memory : s.mem.wf Config.hardware = true
  /-- No byte of the font has been changed ("never mutated thereafter except by a full reset", R65, R80). -/
  font : ∀ e ∈ s.mem, 0x04F < e.1
  /-- "BNNN can load values up to 0x10FE" (R35), and nothing loads more. -/
  pcBound : s.pc.toNat ≤ 0x10FE
  /-- "a popped value is always some 2NNN's p + 2 <= 0x1000" (R182). -/
  returnAddresses : ∀ j : Fin 16, j.val < s.sp.val → s.stack[j].toNat ≤ 0x1000
  /-- The fault record is written only on entry into `HALTED`, and RESET clears it (R42). -/
  recordClear : s.mode ≠ .halted → s.fault = FaultRecord.clear
  /-- "pc = FAULT_PC after a fault", the cause is one of the six, and the opcode is valid unless the fetch failed (R302). -/
  recordWritten : s.mode = .halted →
    s.fault.cause ≠ .none ∧ s.fault.pc = s.pc ∧ (s.fault.opcodeValid = true ↔ s.fault.cause ≠ .fetchRange) ∧
      (s.fault.cause = .fetchRange → s.fault.opcode = 0)

/-- A parked state: `MODE` = `RUNNING` and the word at pc is 1NNN with NNN = pc (R362). -/
def State.parked (s : State) : Prop :=
  s.mode = .running ∧ s.pc.toNat ≤ 0xFFE ∧
    (s.byteAt s.pc.toNat).toNat = 0x10 + s.pc.toNat / 256 ∧ (s.byteAt (s.pc.toNat + 1)).toNat = s.pc.toNat % 256

/-- A run has ended badly when `MODE` = `HALTED` (R362). -/
def State.endedBadly (s : State) : Prop := s.mode = .halted

end Sys2Proof.Machine
end

