-- ==== Sys2Proof/Certificates/Slice0/Obligations.lean ====
section
/-! DEFINITION. The statements for the provers. A statement about an instruction says, for every state and operands that
meet its hypotheses, the next state that `exec` answers: what the instruction writes, and by `changesOnly` that every
other register, byte of memory, stack slot and part of the state is unchanged. -/

namespace Sys2Proof.Statements

open Sys2Proof Sys2Proof.Machine

/-- 8XY6 as R209 has it, for a meaning `ex` with the parameters `c`: the operand is V[Y] or V[X] by `SHIFT_SOURCE`. -/
def shiftsRight (c : Config) (ex : State → Outcome) (x y : Reg) (s : State) : Prop :=
  ∃ t, ex s = .next t ∧
    (x ≠ vF → (t.getV x).toNat = (s.getV (if c.shiftSource = .vy then y else x)).toNat / 2) ∧
    (t.getV vF).toNat = (s.getV (if c.shiftSource = .vy then y else x)).toNat % 2 ∧
    t.pc = s.pc + 2 ∧ changesOnlyIn c [.reg x, .reg vF, .pc] s t

/-- 8XYE as R211 has it, for a meaning `ex` with the parameters `c`. -/
def shiftsLeft (c : Config) (ex : State → Outcome) (x y : Reg) (s : State) : Prop :=
  ∃ t, ex s = .next t ∧
    (x ≠ vF → (t.getV x).toNat = 2 * (s.getV (if c.shiftSource = .vy then y else x)).toNat % 256) ∧
    (t.getV vF).toNat = (s.getV (if c.shiftSource = .vy then y else x)).toNat / 128 ∧
    t.pc = s.pc + 2 ∧ changesOnlyIn c [.reg x, .reg vF, .pc] s t

/-- FX33 as R234 has it, for a meaning `ex` with the parameters `c`: it completes unless a byte is out of range, or lies
in the font while `FONT_WRITE_POLICY` = `FAULT`. -/
def storesDecimal (c : Config) (ex : State → Outcome) (x : Reg) (s : State) : Prop :=
  (s.i.toNat + 2 ≤ 0xFFF → (0x04F < s.i.toNat ∨ c.fontWritePolicy = .allow) →
    ∃ t, ex s = .next t ∧
      (t.readMem c s.i.toNat).toNat = (s.getV x).toNat / 100 ∧
      (t.readMem c (s.i.toNat + 1)).toNat = (s.getV x).toNat / 10 % 10 ∧
      (t.readMem c (s.i.toNat + 2)).toNat = (s.getV x).toNat % 10 ∧
      t.pc = s.pc + 2 ∧ changesOnlyIn c (.pc :: bytesFrom s.i.toNat 3) s t) ∧
  (s.i.toNat + 2 > 0xFFF →
    ∃ t, ex s = .next t ∧ haltedFrom c (fatalRecord .memRange (encode (.ldBX x)) s.pc) s t) ∧
  (s.i.toNat ≤ 0x04F → c.fontWritePolicy = .fault →
    ∃ t, ex s = .next t ∧ haltedFrom c (fatalRecord .fontWrite (encode (.ldBX x)) s.pc) s t)

/-- FX55 as R235 has it, for a meaning `ex` with the parameters `c`. -/
def storesRegisters (c : Config) (ex : State → Outcome) (x : Reg) (s : State) : Prop :=
  (s.i.toNat + x.val ≤ 0xFFF → (0x04F < s.i.toNat ∨ c.fontWritePolicy = .allow) →
    ∃ t, ex s = .next t ∧
      (∀ k : Reg, k.val ≤ x.val → t.readMem c (s.i.toNat + k.val) = s.getV k) ∧
      t.i.toNat = s.i.toNat + x.val + 1 ∧
      t.pc = s.pc + 2 ∧ changesOnlyIn c (.index :: .pc :: bytesFrom s.i.toNat (x.val + 1)) s t) ∧
  (s.i.toNat + x.val > 0xFFF →
    ∃ t, ex s = .next t ∧ haltedFrom c (fatalRecord .memRange (encode (.ldMemX x)) s.pc) s t) ∧
  (s.i.toNat ≤ 0x04F → c.fontWritePolicy = .fault →
    ∃ t, ex s = .next t ∧ haltedFrom c (fatalRecord .fontWrite (encode (.ldMemX x)) s.pc) s t)

/-- A sprite bit of 1 of the DXYN with these operands falls on the pixel at row r and column col (R162). -/
def spriteHits (x y : Reg) (n : Nat) (s : State) (r col : Nat) : Prop :=
  ∃ k < n, ∃ j < 8, ((s.getV y).toNat + k) % 32 = r ∧ ((s.getV x).toNat + j) % 64 = col ∧
    (s.byteAt (s.i.toNat + k)).getLsbD (7 - j) = true

/-- The host's next event is a STEP that executes an instruction of the kind `p`. -/
def runsOne (s : State) (p : Instr → Prop) : Prop :=
  nextEvent s = .step ∧ s.mode = .running ∧ s.pc.toNat + 1 ≤ 0xFFF ∧
    ∃ i, decodeWord (wordAtPc Config.hardware s) = .ok i ∧ p i

end Sys2Proof.Statements

open Sys2Proof Sys2Proof.Machine Sys2Proof.Statements

/-! ### Encoding -/

/-- Words written out from the table of R104 decode to the instructions they stand for, and three unrecognized words of
R105 decode to none (D8, D9). A sanity statement. -/
def Obligations.SampleWordsDecodeAsTabled : Prop :=
  decodeTableWord 16 0x00E0 = some .cls ∧ decodeTableWord 16 0x00EE = some .ret ∧
  decodeTableWord 16 0x2ABC = some (.call 0xABC) ∧ decodeTableWord 16 0x5AB0 = some (.seReg 0xA 0xB) ∧
  decodeTableWord 16 0x7C5E = some (.addByte 0xC 0x5E) ∧ decodeTableWord 16 0x8AB6 = some (.shr 0xA 0xB) ∧
  decodeTableWord 16 0x8ABE = some (.shl 0xA 0xB) ∧ decodeTableWord 16 0xDAB7 = some (.drw 0xA 0xB 7) ∧
  decodeTableWord 16 0xEAA1 = some (.sknp 0xA) ∧ decodeTableWord 16 0xFA55 = some (.ldMemX 0xA) ∧
  decodeTableWord 16 0x0123 = none ∧ decodeTableWord 16 0x5AB1 = none ∧ decodeTableWord 16 0xEAA2 = none

/-- Every well-formed instruction, encoded and laid out as memory holds it, decodes to itself and leaves the bytes after
it (R100, R104). -/
def Obligations.DecodeOfEncodeIsIdentity : Prop :=
  ∀ (i : Instr) (rest : List Byte), i.wf = true → decode (bytesOfWord (encode i) ++ rest) = .ok (i, rest)

/-- Each word has one meaning: a word that decodes is the encoding of the instruction it decodes to, which is well
formed (R104; that every fixed bit is compared is the spec's decision D9). -/
def Obligations.EncodeOfDecodeIsIdentity : Prop :=
  ∀ (op : Word) (i : Instr), decodeWord op = .ok i → encode i = op ∧ i.wf = true

/-- The case tree of the decoder and the mask and match columns of R104 say the same: a word decodes exactly when a row
selects it, the row of the instruction it decodes to selects it, and no other row does. -/
def Obligations.DecoderAgreesWithMaskTable : Prop :=
  ∀ op : Word,
    ((∃ i, decodeWord op = .ok i) ↔ ∃ r ∈ opcodeTable, r.selects op = true) ∧
    (∀ i, decodeWord op = .ok i → i.row ∈ opcodeTable ∧ i.row.selects op = true) ∧
    (∀ r ∈ opcodeTable, ∀ q ∈ opcodeTable, r.selects op = true → q.selects op = true → r = q)

/-- The unrecognized words are exactly those of the table of R105, which the spec derives from R104 and its decisions D8
and D9. -/
def Obligations.UnrecognizedWordsAreThoseListed : Prop :=
  ∀ op : Word,
    (∃ why, decodeWord op = .error why) ↔
      (op.toNat / 4096 = 0 ∧ op ≠ 0x00E0 ∧ op ≠ 0x00EE) ∨
      (op.toNat / 4096 = 5 ∧ op.toNat % 16 ≠ 0) ∨
      (op.toNat / 4096 = 8 ∧ op.toNat % 16 ∈ [0x8, 0x9, 0xA, 0xB, 0xC, 0xD, 0xF]) ∨
      (op.toNat / 4096 = 9 ∧ op.toNat % 16 ≠ 0) ∨
      (op.toNat / 4096 = 0xE ∧ op.toNat % 256 ∉ [0x9E, 0xA1]) ∨
      (op.toNat / 4096 = 0xF ∧ op.toNat % 256 ∉ [0x07, 0x0A, 0x15, 0x18, 0x1E, 0x29, 0x33, 0x55, 0x65])

/-! ### The engine -/

/-- R130: when the host's next event is STEP and `MODE` = `RUNNING`, and the big-endian word at pc decodes to `i`, the
step is `exec i` at the state in which the strobes of the event before are gone and the event is taken from the
schedule. -/
def Obligations.StepRunsTheDecodedInstruction : Prop :=
  ∀ (s : State) (i : Instr), nextEvent s = .step → s.mode = .running → s.pc.toNat + 1 ≤ 0xFFF →
    decodeWord (wordAtPc Config.hardware s) = .ok i →
    step s = exec i { s with fbChanged := false, loadResult := none, schedule := s.schedule.tail }

/-- R133: a STEP at a pc with pc + 1 > 0xFFF raises FETCH_RANGE, with no opcode in the record (the cause of its own is
the spec's decision D26). -/
def Obligations.FetchOutOfRangeHalts : Prop :=
  ∀ s : State, nextEvent s = .step → s.mode = .running → s.pc.toNat + 1 > 0xFFF →
    ∃ t, step s = .next t ∧
      haltedFrom Config.hardware { cause := .fetchRange, opcode := 0, opcodeValid := false, pc := s.pc } s.beginEvent t

/-- R135, for both values of `UNKNOWN_OPCODE_POLICY`, and for this hardware, which takes `FAULT` (D7). -/
def Obligations.UnknownOpcodeFollowsPolicy : Prop :=
  (∀ (c : Config) (s : State) (why : Unrecognized), nextEvent s = .step → s.mode = .running → s.pc.toNat + 1 ≤ 0xFFF →
    decodeWord (wordAtPc c s) = .error why →
    (c.unknownOpcodePolicy = .fault → ∃ t, stepWith c s = .next t ∧
      haltedFrom c (fatalRecord .unknownOpcode (wordAtPc c s) s.pc) s.beginEvent t) ∧
    (c.unknownOpcodePolicy = .nop → ∃ t, stepWith c s = .next t ∧
      t.pc = s.pc + 2 ∧ changesOnlyIn c [.pc] s.beginEvent t)) ∧
  (∀ (s : State) (why : Unrecognized), nextEvent s = .step → s.mode = .running → s.pc.toNat + 1 ≤ 0xFFF →
    decodeWord (wordAtPc Config.hardware s) = .error why →
    ∃ t, step s = .next t ∧
      haltedFrom Config.hardware (fatalRecord .unknownOpcode (wordAtPc Config.hardware s) s.pc) s.beginEvent t)

/-- R131: a STEP while `MODE` = `AWAIT_KEY` changes no state, pc included; it is taken from the schedule, and the strobes
of the event before it are gone. A timer tick still runs in this mode. -/
def Obligations.StepWhileAwaitingKeyChangesNothing : Prop :=
  (∀ s : State, nextEvent s = .step → s.mode = .awaitKey →
    ∃ t, step s = .next t ∧ t.mem = s.mem ∧ changesOnly [] s.beginEvent t) ∧
  (∀ s : State, nextEvent s = .timerTick → s.mode = .awaitKey →
    ∃ t, step s = .next t ∧ t.dt.toNat = s.dt.toNat - 1 ∧ t.st.toNat = s.st.toNat - 1 ∧ t.mode = .awaitKey ∧ t.pc = s.pc)

/-- R138, R302 (the precision is the spec's decision D15): an instruction that raises changes only `MODE` and the fault
record, which holds one of the four causes an instruction can raise, its own opcode and its own pc. -/
def Obligations.FaultsArePrecise : Prop :=
  ∀ (i : Instr) (s t : State), s.mode = .running → exec i s = .next t → t.mode = .halted →
    ∃ cause ∈ [FaultCause.memRange, .stackOverflow, .stackUnderflow, .fontWrite],
      haltedFrom Config.hardware (fatalRecord cause (encode i) s.pc) s t

/-- The column "raised by" of R301 for this hardware: which instructions raise which cause, exactly when. -/
def Obligations.InstructionsRaiseExactlyTheirCauses : Prop :=
  ∀ (i : Instr) (s t : State), s.mode = .running → exec i s = .next t →
    ((t.mode = .halted ∧ t.fault.cause = .stackOverflow) ↔ ∃ nnn, i = .call nnn ∧ s.sp.val = 16) ∧
    ((t.mode = .halted ∧ t.fault.cause = .stackUnderflow) ↔ (i = .ret ∧ s.sp.val = 0)) ∧
    ((t.mode = .halted ∧ t.fault.cause = .memRange) ↔
      ((∃ x y n, i = .drw x y n ∧ n ≠ 0 ∧ s.i.toNat + n - 1 > 0xFFF) ∨ (∃ x, i = .ldBX x ∧ s.i.toNat + 2 > 0xFFF) ∨
        (∃ x, i = .ldMemX x ∧ s.i.toNat + x.val > 0xFFF) ∨ (∃ x, i = .ldXMem x ∧ s.i.toNat + x.val > 0xFFF))) ∧
    ((t.mode = .halted ∧ t.fault.cause = .fontWrite) ↔
      ((∃ x, i = .ldBX x ∧ s.i.toNat ≤ 0x04F) ∨ (∃ x, i = .ldMemX x ∧ s.i.toNat ≤ 0x04F)))

/-- No instruction and no event ends in a fault or a refusal of the model: every error is the entry into `HALTED`
(R300). -/
def Obligations.EveryStepAnswersANextState : Prop :=
  (∀ (i : Instr) (s : State), ∃ t, exec i s = .next t) ∧ (∀ s : State, ∃ t, step s = .next t)

/-- The machine of this hardware is the machine with the parameters as an argument (R45), taken at this hardware's
values: those of R17, R18, R19 and R21 and the 80 font bytes of R63, a row for each digit. The values are the spec's
decisions D3, D4, D7, D12 and D22 (log entry 9; the font bytes, which the spec takes from general knowledge, log entry 5). -/
def Obligations.HardwareIsTheParametricMachineAtItsValues : Prop :=
  (∀ (i : Instr) (s : State), exec i s = execWith Config.hardware i s) ∧
  (∀ s : State, step s = stepWith Config.hardware s) ∧
  Config.hardware.shiftSource = .vy ∧ Config.hardware.unknownOpcodePolicy = .fault ∧
  Config.hardware.fontWritePolicy = .fault ∧ Config.hardware.timerHz = 60 ∧
  Config.hardware.font.toList.map Vector.toList =
    [[0xF0, 0x90, 0x90, 0x90, 0xF0], [0x20, 0x60, 0x20, 0x20, 0x70], [0xF0, 0x10, 0xF0, 0x80, 0xF0],
     [0xF0, 0x10, 0xF0, 0x10, 0xF0], [0x90, 0x90, 0xF0, 0x10, 0x10], [0xF0, 0x80, 0xF0, 0x10, 0xF0],
     [0xF0, 0x80, 0xF0, 0x90, 0xF0], [0xF0, 0x10, 0x20, 0x40, 0x40]] ++
    [[0xF0, 0x90, 0xF0, 0x90, 0xF0], [0xF0, 0x90, 0xF0, 0x10, 0xF0], [0xF0, 0x90, 0xF0, 0x90, 0x90],
     [0xE0, 0x90, 0xE0, 0x90, 0xE0], [0xF0, 0x80, 0x80, 0x80, 0xF0], [0xE0, 0x90, 0x90, 0x90, 0xE0],
     [0xF0, 0x80, 0xF0, 0x80, 0xF0], [0xF0, 0x80, 0xF0, 0x80, 0x80]]

/-! ### Reset and the invariant -/

/-- The reset values of R47; those other than the font are the spec's decision D14, and the last four fields are the
model's (log entries 1, 2 and 6). -/
def Obligations.ResetStateHoldsTheListedValues : Prop :=
  (∀ r : Reg, State.reset.getV r = 0) ∧ State.reset.i = 0 ∧ State.reset.pc = 0x200 ∧ State.reset.sp.val = 0 ∧
  (∀ j : Fin 16, State.reset.stack[j] = 0) ∧ State.reset.dt = 0 ∧ State.reset.st = 0 ∧
  (∀ r < 32, ∀ c < 64, State.reset.fb.pixel r c = false) ∧ (∀ k : Fin 16, State.reset.keys[k] = false) ∧
  State.reset.mode = .running ∧ State.reset.awaitTarget = 0 ∧
  State.reset.fault = { cause := .none, opcode := 0, opcodeValid := false, pc := 0 } ∧
  (∀ (d : Fin 16) (j : Fin 5), State.reset.byteAt (5 * d.val + j.val) = Config.hardware.font[d][j]) ∧
  (∀ a, 0x050 ≤ a → a ≤ 0xFFF → State.reset.byteAt a = 0) ∧
  State.reset.fbChanged = false ∧ State.reset.loadResult = none ∧ State.reset.schedule = []

/-- R350: a RESET event, in any mode and from any state, sets every piece of the core's state to its reset value (D14); the
host's further events and the count of draws are the environment's and stay (log entries 1 and 2). -/
def Obligations.ResetEventReinitializesEverything : Prop :=
  ∀ (s : State) (rest : List HostEvent), s.schedule = .reset :: rest →
    ∃ t, step s = .next t ∧ t.mem = State.reset.mem ∧ changesOnly [.rndDraws, .schedule] State.reset t ∧
      t.rndDraws = s.rndDraws ∧ t.schedule = rest

/-- The invariant of Sys2Proof/Safety.lean holds at reset (the reset values are the spec's decision D14). -/
def Obligations.ResetMeetsInvariant : Prop := State.reset.Inv

/-- Every event of the host, from every state that meets the invariant, leads to a state that meets it: memory stays
canonical and inside the address space, the font is intact, pc is at most 0x10FE, return addresses are at most 0x1000,
and the fault record is clear outside `HALTED` and complete in it. -/
def Obligations.StepKeepsInvariant : Prop :=
  ∀ s t : State, s.Inv → step s = .next t → t.Inv

/-! ### The host's events -/

/-- R311: TIMER_TICK decrements each timer that is above zero, unless `MODE` = `HALTED`, and changes nothing else; the
timers are otherwise written by FX15, by FX18 and by RESET alone. That a halted core's timers are frozen is R303, the
spec's decision D17 (log entry 7). -/
def Obligations.TimerTickDecrementsBothTimers : Prop :=
  (∀ (s : State) (rest : List HostEvent), s.schedule = .timerTick :: rest →
    ∃ t, step s = .next t ∧
      t.dt.toNat = (if s.mode = .halted then s.dt.toNat else s.dt.toNat - 1) ∧
      t.st.toNat = (if s.mode = .halted then s.st.toNat else s.st.toNat - 1) ∧
      t.mem = s.mem ∧ changesOnly [.delayTimer, .soundTimer] s.beginEvent t) ∧
  (∀ s t : State, step s = .next t → nextEvent s ≠ .timerTick → nextEvent s ≠ .reset →
    (t.dt ≠ s.dt → runsOne s (fun i => ∃ x, i = .ldDtX x)) ∧ (t.st ≠ s.st → runsOne s (fun i => ∃ x, i = .ldStX x)))

/-- After n TIMER_TICKs both timers hold their value less n, and 0 once n reaches it (§8's timer scenario; R357). -/
def Obligations.TimersAfterTicksAreLessByTheirCount : Prop :=
  ∀ (n : Nat) (s : State) (rest : List HostEvent), s.mode ≠ .halted →
    s.schedule = List.replicate n HostEvent.timerTick ++ rest →
    ∃ t : State, Host.Core.run Sys2Proof.core n s = .next t ∧
      t.dt.toNat = s.dt.toNat - n ∧ t.st.toNat = s.st.toNat - n ∧ t.schedule = rest ∧ t.pc = s.pc ∧ t.mode = s.mode

/-- KEY_DOWN(k) of R315: the key is held in every mode (D28), and it ends an FX0A wait with its code in V[AWAIT_TARGET],
also if the key was held before (D18). -/
def Obligations.KeyDownHoldsKeyAndEndsWait : Prop :=
  ∀ (s : State) (k : Fin 16) (rest : List HostEvent), s.schedule = .keyDown k :: rest →
    ∃ t, step s = .next t ∧ t.keys[k] = true ∧ t.mem = s.mem ∧
      (s.mode = .awaitKey → t.mode = .running ∧ (t.getV s.awaitTarget).toNat = k.val ∧
        changesOnly [.key k, .mode, .reg s.awaitTarget] s.beginEvent t) ∧
      (s.mode ≠ .awaitKey → changesOnly [.key k] s.beginEvent t)

/-- R316: KEY_UP(k) releases the key and does nothing else, in every mode (that the mode does not matter is the spec's
decision D28, log entry 14). -/
def Obligations.KeyUpReleasesKeyOnly : Prop :=
  ∀ (s : State) (k : Fin 16) (rest : List HostEvent), s.schedule = .keyUp k :: rest →
    ∃ t, step s = .next t ∧ t.keys[k] = false ∧ t.mem = s.mem ∧ changesOnly [.key k] s.beginEvent t

/-- R79: a LOAD that fits writes its bytes from 0x200 upward and nothing else, in any mode (D25). -/
def Obligations.LoadWritesItsBytesOnly : Prop :=
  ∀ (s : State) (b : List Byte) (rest : List HostEvent), s.schedule = .load b :: rest → b.length ≤ 0xE00 →
    ∃ t, step s = .next t ∧ t.loadResult = some .ok ∧
      (∀ k (h : k < b.length), t.byteAt (0x200 + k) = b[k]) ∧
      changesOnly (.loadResult :: bytesFrom 0x200 b.length) s.beginEvent t

/-- R307: a LOAD longer than 0xE00 returns LOAD_TOO_LARGE and changes no state, and is no fault; one that fits returns
LOAD_OK. -/
def Obligations.OversizedLoadChangesNothing : Prop :=
  ∀ (s : State) (b : List Byte) (rest : List HostEvent), s.schedule = .load b :: rest →
    (b.length > 0xE00 → ∃ t, step s = .next t ∧ t.loadResult = some .tooLarge ∧ t.mem = s.mem ∧
      changesOnly [.loadResult] s.beginEvent t) ∧
    (b.length ≤ 0xE00 → ∃ t, step s = .next t ∧ t.loadResult = some .ok ∧ t.mode = s.mode ∧ t.fault = s.fault)

/-- R303 (D17): while `MODE` = `HALTED`, STEP and TIMER_TICK change nothing, a key event changes its key only, and a LOAD
writes bytes only. -/
def Obligations.HaltedCoreIsFrozen : Prop :=
  ∀ s : State, s.mode = .halted →
    ((nextEvent s = .step ∨ nextEvent s = .timerTick) →
      ∃ t, step s = .next t ∧ t.mem = s.mem ∧ changesOnly [] s.beginEvent t) ∧
    (∀ k, (nextEvent s = .keyDown k ∨ nextEvent s = .keyUp k) →
      ∃ t, step s = .next t ∧ t.mem = s.mem ∧ changesOnly [.key k] s.beginEvent t) ∧
    (∀ b, nextEvent s = .load b →
      ∃ t, step s = .next t ∧ changesOnly (.loadResult :: bytesFrom 0x200 b.length) s.beginEvent t)

/-- R317: FX0A is the one instruction that enters the await-key state, and only KEY_DOWN or RESET leaves it. -/
def Obligations.AwaitKeyIsEnteredAndLeftAsStated : Prop :=
  (∀ (i : Instr) (s t : State), s.mode = .running → exec i s = .next t → (t.mode = .awaitKey ↔ ∃ x, i = .ldXK x)) ∧
  (∀ s t : State, s.mode = .awaitKey → step s = .next t →
    (t.mode ≠ .awaitKey ↔ ((∃ k, nextEvent s = .keyDown k) ∨ nextEvent s = .reset)))

/-- R80: RESET loads the font, and no other event writes the font region under `FONT_WRITE_POLICY` = `FAULT`. -/
def Obligations.OnlyResetWritesTheFontRegion : Prop :=
  ∀ (c : Config) (s t : State), stepWith c s = .next t →
    (nextEvent s = .reset → ∀ (d : Fin 16) (j : Fin 5), t.readMem c (5 * d.val + j.val) = c.font[d][j]) ∧
    (nextEvent s ≠ .reset → c.fontWritePolicy = .fault → ∀ a ≤ 0x04F, t.readMem c a = s.readMem c a)

/-- R308: no event but STEP and RESET changes pc. -/
def Obligations.OnlyStepAndResetChangePc : Prop :=
  ∀ s t : State, step s = .next t → nextEvent s ≠ .step → nextEvent s ≠ .reset → t.pc = s.pc

/-- R165: the display buffer is written by 00E0, by DXYN and by RESET, and by nothing else. -/
def Obligations.DisplayHasOnlyItsWritePaths : Prop :=
  ∀ s t : State, step s = .next t → t.fb ≠ s.fb →
    nextEvent s = .reset ∨ runsOne s (fun i => i = .cls ∨ ∃ x y n, i = .drw x y n)

/-- Who writes what else: I (R33), the call stack (R36), the held keys (R40) and memory (R69, R74), by the event and the
instruction. -/
def Obligations.OtherStateHasOnlyItsWriters : Prop :=
  ∀ s t : State, step s = .next t → nextEvent s ≠ .reset →
    (t.i ≠ s.i → runsOne s (fun i => (∃ nnn, i = .ldI nnn) ∨ ∃ x, i = .addIX x ∨ i = .ldFX x ∨ i = .ldMemX x ∨ i = .ldXMem x)) ∧
    (t.stack ≠ s.stack → runsOne s (fun i => ∃ nnn, i = .call nnn)) ∧
    (t.sp ≠ s.sp → runsOne s (fun i => i = .ret ∨ ∃ nnn, i = .call nnn)) ∧
    (t.keys ≠ s.keys → ∃ k, nextEvent s = .keyDown k ∨ nextEvent s = .keyUp k) ∧
    (t.mem ≠ s.mem → (∃ b, nextEvent s = .load b) ∨ runsOne s (fun i => ∃ x, i = .ldBX x ∨ i = .ldMemX x))

/-- R164 (D24): `fb_changed` is 1 after exactly those events that are a STEP which executed 00E0 or a DXYN that did not
fault. -/
def Obligations.FbChangedPulsesForDrawAndClear : Prop :=
  ∀ s t : State, step s = .next t →
    (t.fbChanged = true ↔
      (nextEvent s = .step ∧ s.mode = .running ∧ s.pc.toNat + 1 ≤ 0xFFF ∧
        (decodeWord (wordAtPc Config.hardware s) = .ok .cls ∨
          (t.mode = .running ∧ ∃ x y n, decodeWord (wordAtPc Config.hardware s) = .ok (.drw x y n)))))

/-- R31: VF changes only as the flag of an instruction that defines one, or as the destination of one whose X is 0xF. -/
def Obligations.FlagRegisterHasOnlyItsWriters : Prop :=
  ∀ (i : Instr) (s t : State), exec i s = .next t → t.getV vF ≠ s.getV vF →
    (∃ x y, i = .addReg x y ∨ i = .sub x y ∨ i = .shr x y ∨ i = .subn x y ∨ i = .shl x y) ∨
    (∃ x y n, i = .drw x y n) ∨
    (∃ nn, i = .ldByte vF nn ∨ i = .addByte vF nn ∨ i = .rnd vF nn) ∨
    (∃ y, i = .ldReg vF y ∨ i = .orReg vF y ∨ i = .andReg vF y ∨ i = .xorReg vF y) ∨
    i = .ldXDt vF ∨ i = .ldXMem vF

/-- R362 (D27): from a parked state a STEP changes nothing. -/
def Obligations.ParkedStateStaysAsItIs : Prop :=
  ∀ s : State, s.parked → nextEvent s = .step →
    ∃ t, step s = .next t ∧ t.mem = s.mem ∧ changesOnly [] s.beginEvent t

/-- The layout of STATUS and of the two fault ports (R43, R301; the spec's decision D16). -/
def Obligations.StatusPortShowsModeAndFault : Prop :=
  ∀ s : State,
    (s.status.extractLsb' 0 2).toNat = (match s.mode with | .running => 0 | .awaitKey => 1 | .halted => 2) ∧
    (s.status.extractLsb' 2 4).toNat = (if s.mode = .awaitKey then s.awaitTarget.val else 0) ∧
    (s.status.extractLsb' 6 3).toNat =
      (if s.mode = .halted then
        (match s.fault.cause with
          | .none => 0 | .fetchRange => 1 | .memRange => 2 | .stackOverflow => 3 | .stackUnderflow => 4
          | .unknownOpcode => 5 | .fontWrite => 6) else 0) ∧
    (s.status.extractLsb' 9 1).toNat = (if s.mode = .halted ∧ s.fault.opcodeValid = true then 1 else 0) ∧
    s.status.extractLsb' 10 6 = 0 ∧
    s.faultOpcodePort = (if s.mode = .halted then s.fault.opcode else 0) ∧
    s.faultPcPort = (if s.mode = .halted then s.fault.pc else 0)

/-! ### Display (41_display.md) -/

/-- R161: 00E0 clears every pixel, pulses `fb_changed` (the strobe is the spec's decision D24), advances pc and writes no
flag. -/
def Obligations.ClsClearsTheDisplay : Prop :=
  encodedBy 0xFFFF 0x00E0 .cls ∧
  ∀ s : State, ∃ t, exec .cls s = .next t ∧
    (∀ r < 32, ∀ col < 64, t.fb.pixel r col = false) ∧ t.fbChanged = true ∧ t.pc = s.pc + 2 ∧
    t.mem = s.mem ∧ changesOnly [.display, .fbChanged, .pc] s t

/-- R162: DXYN XORs the sprite at (V[Y], V[X]), both axes wrapping, and writes the collision flag to VF; the case N = 0,
which draws nothing and sets VF to 0, is the spec's decision D20 (log entry 16), and the strobe `fb_changed` of R164 is its
decision D24 (log entry 22). A draw that reads above 0xFFF raises MEM_RANGE and changes nothing else (the precision is D15,
log entry 17). -/
def Obligations.DrwXorsTheSpriteOntoTheDisplay : Prop :=
  ∀ (x y : Reg) (n : Nat) (s : State), n < 16 →
    encodedBy 0xF000 0xD000 (.drw x y n) ∧
    ((n = 0 ∨ s.i.toNat + n - 1 ≤ 0xFFF) →
      ∃ t, exec (.drw x y n) s = .next t ∧
        (∀ r < 32, ∀ col < 64,
          (t.fb.pixel r col = true ↔ (s.fb.pixel r col = true ↔ ¬ spriteHits x y n s r col))) ∧
        (t.getV vF = 1 ↔ ∃ r < 32, ∃ col < 64, s.fb.pixel r col = true ∧ spriteHits x y n s r col) ∧
        (t.getV vF = 0 ∨ t.getV vF = 1) ∧ t.fbChanged = true ∧ t.pc = s.pc + 2 ∧
        t.mem = s.mem ∧ changesOnly [.display, .reg vF, .fbChanged, .pc] s t) ∧
    (n ≠ 0 → s.i.toNat + n - 1 > 0xFFF →
      ∃ t, exec (.drw x y n) s = .next t ∧
        haltedFrom Config.hardware (fatalRecord .memRange (encode (.drw x y n)) s.pc) s t)

/-- R163: the collision flag is 1 exactly when a sprite bit of 1 hits a pixel that was 1, which becomes 0, and that is
exactly when some pixel goes from 1 to 0 in the draw; otherwise it is 0. -/
def Obligations.CollisionFlagIsSetExactlyWhenAPixelIsCleared : Prop :=
  ∀ (x y : Reg) (n : Nat) (s t : State), n < 16 → s.mode = .running → exec (.drw x y n) s = .next t →
    t.mode = .running →
    (t.getV vF = 1 ↔ ∃ r < 32, ∃ col < 64, s.fb.pixel r col = true ∧ spriteHits x y n s r col) ∧
    (t.getV vF = 1 ↔ ∃ r < 32, ∃ col < 64, s.fb.pixel r col = true ∧ t.fb.pixel r col = false) ∧
    (∀ r < 32, ∀ col < 64, s.fb.pixel r col = true → spriteHits x y n s r col → t.fb.pixel r col = false) ∧
    (t.getV vF ≠ 1 → t.getV vF = 0)

/-- Drawing the same sprite at the same place twice restores every pixel (R162's corner case, §8), and the second draw
sets VF to 1 exactly when a 1 bit of the sprite falls on a pixel that was 0 before the first (R163; log entry 8: R162's
corner case says it of every sprite with a 1 bit, which its own pseudocode does not give on pixels that were 1). X and Y
are not 0xF, since the first draw writes VF. -/
def Obligations.DrawingTwiceRestoresTheDisplay : Prop :=
  ∀ (x y : Reg) (n : Nat) (s : State), n < 16 → x ≠ vF → y ≠ vF → (n = 0 ∨ s.i.toNat + n - 1 ≤ 0xFFF) →
    ∃ t u, exec (.drw x y n) s = .next t ∧ exec (.drw x y n) t = .next u ∧ u.fb = s.fb ∧
      (u.getV vF = 1 ↔ ∃ r < 32, ∃ col < 64, s.fb.pixel r col = false ∧ spriteHits x y n s r col)

/-! ### Control transfer (42_control.md) -/

/-- R182: 00EE pops the pc, and raises STACK_UNDERFLOW when SP = 0. That the popped slot keeps its value is R181 and R36, the
spec's decision D30 (log entry 21). -/
def Obligations.RetPopsTheReturnAddress : Prop :=
  encodedBy 0xFFFF 0x00EE .ret ∧
  ∀ s : State,
    (∀ h : s.sp.val ≠ 0, ∃ t, exec .ret s = .next t ∧ t.pc = s.stack[s.sp.val - 1]'(by have := s.sp.isLt; omega) ∧
      t.sp.val = s.sp.val - 1 ∧ t.mem = s.mem ∧ changesOnly [.pc, .sp] s t) ∧
    (s.sp.val = 0 → ∃ t, exec .ret s = .next t ∧
      haltedFrom Config.hardware (fatalRecord .stackUnderflow (encode .ret) s.pc) s t)

/-- R183: 1NNN jumps to NNN. -/
def Obligations.JpSetsThePc : Prop :=
  ∀ (nnn : BitVec 12) (s : State), encodedBy 0xF000 0x1000 (.jp nnn) ∧
    ∃ t, exec (.jp nnn) s = .next t ∧ t.pc.toNat = nnn.toNat ∧ t.mem = s.mem ∧ changesOnly [.pc] s t

/-- R184: 2NNN pushes p + 2 and jumps to NNN, and raises STACK_OVERFLOW when SP = 16. -/
def Obligations.CallPushesTheNextAddress : Prop :=
  ∀ (nnn : BitVec 12) (s : State), encodedBy 0xF000 0x2000 (.call nnn) ∧
    (∀ h : s.sp.val < 16, ∃ t, exec (.call nnn) s = .next t ∧ t.stack[s.sp.val] = s.pc + 2 ∧
      t.sp.val = s.sp.val + 1 ∧ t.pc.toNat = nnn.toNat ∧ t.mem = s.mem ∧
      changesOnly [.stackSlot ⟨s.sp.val, h⟩, .sp, .pc] s t) ∧
    (s.sp.val = 16 → ∃ t, exec (.call nnn) s = .next t ∧
      haltedFrom Config.hardware (fatalRecord .stackOverflow (encode (.call nnn)) s.pc) s t)

/-- §8's round trip (R184's example): a 00EE at any later state whose stack is as the 2NNN left it returns to the instruction after the
call, and SP is as before the call. -/
def Obligations.ReturnComesBackAfterTheCall : Prop :=
  ∀ (nnn : BitVec 12) (s t u : State), s.sp.val < 16 → exec (.call nnn) s = .next t → u.stack = t.stack → u.sp = t.sp →
    ∃ w, exec .ret u = .next w ∧ w.pc = s.pc + 2 ∧ w.sp = s.sp

/-- R185 to R188: the four conditional skips. -/
def Obligations.ConditionalSkipsCompareAndSkip : Prop :=
  (∀ (x : Reg) (nn : Byte) (s : State), encodedBy 0xF000 0x3000 (.seByte x nn) ∧
    ∃ t, exec (.seByte x nn) s = .next t ∧ t.pc = s.pc + (if s.getV x = nn then 4 else 2) ∧
      t.mem = s.mem ∧ changesOnly [.pc] s t) ∧
  (∀ (x : Reg) (nn : Byte) (s : State), encodedBy 0xF000 0x4000 (.sneByte x nn) ∧
    ∃ t, exec (.sneByte x nn) s = .next t ∧ t.pc = s.pc + (if s.getV x = nn then 2 else 4) ∧
      t.mem = s.mem ∧ changesOnly [.pc] s t) ∧
  (∀ (x y : Reg) (s : State), encodedBy 0xF00F 0x5000 (.seReg x y) ∧
    ∃ t, exec (.seReg x y) s = .next t ∧ t.pc = s.pc + (if s.getV x = s.getV y then 4 else 2) ∧
      t.mem = s.mem ∧ changesOnly [.pc] s t) ∧
  (∀ (x y : Reg) (s : State), encodedBy 0xF00F 0x9000 (.sneReg x y) ∧
    ∃ t, exec (.sneReg x y) s = .next t ∧ t.pc = s.pc + (if s.getV x = s.getV y then 2 else 4) ∧
      t.mem = s.mem ∧ changesOnly [.pc] s t)

/-- R189: BNNN jumps to NNN plus V0; the sum never wraps. -/
def Obligations.JpV0AddsV0ToTheTarget : Prop :=
  ∀ (nnn : BitVec 12) (s : State), encodedBy 0xF000 0xB000 (.jpV0 nnn) ∧
    ∃ t, exec (.jpV0 nnn) s = .next t ∧ t.pc.toNat = (s.getV 0).toNat + nnn.toNat ∧ t.mem = s.mem ∧
      changesOnly [.pc] s t

/-! ### Registers and arithmetic (43_alu.md) -/

/-- R201 and R203: the loads of a byte and of a register. -/
def Obligations.RegisterLoadsWriteTheirDestination : Prop :=
  (∀ (x : Reg) (nn : Byte) (s : State), encodedBy 0xF000 0x6000 (.ldByte x nn) ∧
    ∃ t, exec (.ldByte x nn) s = .next t ∧ t.getV x = nn ∧ t.pc = s.pc + 2 ∧ t.mem = s.mem ∧
      changesOnly [.reg x, .pc] s t) ∧
  (∀ (x y : Reg) (s : State), encodedBy 0xF00F 0x8000 (.ldReg x y) ∧
    ∃ t, exec (.ldReg x y) s = .next t ∧ t.getV x = s.getV y ∧ t.pc = s.pc + 2 ∧ t.mem = s.mem ∧
      changesOnly [.reg x, .pc] s t)

/-- R202: 7XNN adds modulo 256 and writes no flag. -/
def Obligations.AddByteWrapsWithoutFlag : Prop :=
  ∀ (x : Reg) (nn : Byte) (s : State), encodedBy 0xF000 0x7000 (.addByte x nn) ∧
    ∃ t, exec (.addByte x nn) s = .next t ∧ (t.getV x).toNat = ((s.getV x).toNat + nn.toNat) % 256 ∧
      t.pc = s.pc + 2 ∧ t.mem = s.mem ∧ changesOnly [.reg x, .pc] s t

/-- R204 to R206: the bitwise operations, bit by bit, without a flag. -/
def Obligations.BitwiseOperationsCombineEachBit : Prop :=
  (∀ (x y : Reg) (s : State), encodedBy 0xF00F 0x8001 (.orReg x y) ∧
    ∃ t, exec (.orReg x y) s = .next t ∧
      (∀ k < 8, (t.getV x).getLsbD k = ((s.getV x).getLsbD k || (s.getV y).getLsbD k)) ∧
      t.pc = s.pc + 2 ∧ t.mem = s.mem ∧ changesOnly [.reg x, .pc] s t) ∧
  (∀ (x y : Reg) (s : State), encodedBy 0xF00F 0x8002 (.andReg x y) ∧
    ∃ t, exec (.andReg x y) s = .next t ∧
      (∀ k < 8, (t.getV x).getLsbD k = ((s.getV x).getLsbD k && (s.getV y).getLsbD k)) ∧
      t.pc = s.pc + 2 ∧ t.mem = s.mem ∧ changesOnly [.reg x, .pc] s t) ∧
  (∀ (x y : Reg) (s : State), encodedBy 0xF00F 0x8003 (.xorReg x y) ∧
    ∃ t, exec (.xorReg x y) s = .next t ∧
      (∀ k < 8, (t.getV x).getLsbD k = ((s.getV x).getLsbD k != (s.getV y).getLsbD k)) ∧
      t.pc = s.pc + 2 ∧ t.mem = s.mem ∧ changesOnly [.reg x, .pc] s t)

/-- R207: 8XY4; for X = 0xF VF ends holding the carry (the order of the two writes is the spec's decision D5). -/
def Obligations.AddRegCarriesIntoVF : Prop :=
  ∀ (x y : Reg) (s : State), encodedBy 0xF00F 0x8004 (.addReg x y) ∧
    ∃ t, exec (.addReg x y) s = .next t ∧
      (x ≠ vF → (t.getV x).toNat = ((s.getV x).toNat + (s.getV y).toNat) % 256) ∧
      t.getV vF = (if (s.getV x).toNat + (s.getV y).toNat > 255 then 1 else 0) ∧
      t.pc = s.pc + 2 ∧ t.mem = s.mem ∧ changesOnly [.reg x, .reg vF, .pc] s t

/-- R208 and R210: 8XY5 and 8XY7, with not-borrow in VF, also for X = 0xF (D5). -/
def Obligations.SubtractionsPutNotBorrowIntoVF : Prop :=
  (∀ (x y : Reg) (s : State), encodedBy 0xF00F 0x8005 (.sub x y) ∧
    ∃ t, exec (.sub x y) s = .next t ∧
      (x ≠ vF → (t.getV x).toNat = ((s.getV x).toNat + 256 - (s.getV y).toNat) % 256) ∧
      t.getV vF = (if (s.getV x).toNat ≥ (s.getV y).toNat then 1 else 0) ∧
      t.pc = s.pc + 2 ∧ t.mem = s.mem ∧ changesOnly [.reg x, .reg vF, .pc] s t) ∧
  (∀ (x y : Reg) (s : State), encodedBy 0xF00F 0x8007 (.subn x y) ∧
    ∃ t, exec (.subn x y) s = .next t ∧
      (x ≠ vF → (t.getV x).toNat = ((s.getV y).toNat + 256 - (s.getV x).toNat) % 256) ∧
      t.getV vF = (if (s.getV y).toNat ≥ (s.getV x).toNat then 1 else 0) ∧
      t.pc = s.pc + 2 ∧ t.mem = s.mem ∧ changesOnly [.reg x, .reg vF, .pc] s t)

/-- R209 and R211, for both values of `SHIFT_SOURCE` and for this hardware, which takes `VY` (D4); VF is written last
(D5). -/
def Obligations.ShiftsPutTheBitShiftedOutIntoVF : Prop :=
  (∀ x y : Reg, encodedBy 0xF00F 0x8006 (.shr x y) ∧ encodedBy 0xF00F 0x800E (.shl x y)) ∧
  (∀ (c : Config) (x y : Reg) (s : State),
    shiftsRight c (execWith c (.shr x y)) x y s ∧ shiftsLeft c (execWith c (.shl x y)) x y s) ∧
  Config.hardware.shiftSource = .vy ∧
  (∀ (x y : Reg) (s : State),
    shiftsRight Config.hardware (exec (.shr x y)) x y s ∧ shiftsLeft Config.hardware (exec (.shl x y)) x y s)

/-- R212: CXNN masks the byte it draws from the `rnd` port, a free value (D21, log entry 1), and each execution draws a
fresh one. -/
def Obligations.RndMasksAFreshDraw : Prop :=
  ∀ (x : Reg) (nn : Byte) (s : State), encodedBy 0xF000 0xC000 (.rnd x nn) ∧
    ∃ t, exec (.rnd x nn) s = .next t ∧
      (∀ k < 8, (t.getV x).getLsbD k = ((Config.rnd s.rndDraws).getLsbD k && nn.getLsbD k)) ∧
      t.rndDraws = s.rndDraws + 1 ∧ t.pc = s.pc + 2 ∧ t.mem = s.mem ∧ changesOnly [.reg x, .rndDraws, .pc] s t

/-! ### Index register and memory (44_index_memory.md) -/

/-- R231 and R233: ANNN and FX29 set I; V[X] is not masked by FX29. -/
def Obligations.IndexLoadsSetI : Prop :=
  (∀ (nnn : BitVec 12) (s : State), encodedBy 0xF000 0xA000 (.ldI nnn) ∧
    ∃ t, exec (.ldI nnn) s = .next t ∧ t.i.toNat = nnn.toNat ∧ t.pc = s.pc + 2 ∧ t.mem = s.mem ∧
      changesOnly [.index, .pc] s t) ∧
  (∀ (x : Reg) (s : State), encodedBy 0xF0FF 0xF029 (.ldFX x) ∧
    ∃ t, exec (.ldFX x) s = .next t ∧ t.i.toNat = (s.getV x).toNat * 5 ∧ t.pc = s.pc + 2 ∧ t.mem = s.mem ∧
      changesOnly [.index, .pc] s t)

/-- R232: FX1E adds to I modulo 2^16 (D11) and writes no flag (D6). -/
def Obligations.AddIndexWrapsWithoutFlag : Prop :=
  ∀ (x : Reg) (s : State), encodedBy 0xF0FF 0xF01E (.addIX x) ∧
    ∃ t, exec (.addIX x) s = .next t ∧ t.i.toNat = (s.i.toNat + (s.getV x).toNat) % 65536 ∧
      t.pc = s.pc + 2 ∧ t.mem = s.mem ∧ changesOnly [.index, .pc] s t

/-- R234: FX33 stores the decimal digits at I, I+1 and I+2 or faults with nothing stored, for every value of the
parameters and for this hardware. -/
def Obligations.LdBStoresDecimalDigits : Prop :=
  (∀ x : Reg, encodedBy 0xF0FF 0xF033 (.ldBX x)) ∧
  (∀ (c : Config) (x : Reg) (s : State), storesDecimal c (execWith c (.ldBX x)) x s) ∧
  (∀ (x : Reg) (s : State), storesDecimal Config.hardware (exec (.ldBX x)) x s)

/-- R235: FX55 stores V0 to V[X] at I onward and advances I, or faults with nothing stored, for every value of the
parameters and for this hardware. -/
def Obligations.LdMemStoresRegisters : Prop :=
  (∀ x : Reg, encodedBy 0xF0FF 0xF055 (.ldMemX x)) ∧
  (∀ (c : Config) (x : Reg) (s : State), storesRegisters c (execWith c (.ldMemX x)) x s) ∧
  (∀ (x : Reg) (s : State), storesRegisters Config.hardware (exec (.ldMemX x)) x s)

/-- R236: FX65 loads V0 to V[X] from I onward and advances I, or raises MEM_RANGE with nothing loaded. -/
def Obligations.LdXMemLoadsRegisters : Prop :=
  ∀ (x : Reg) (s : State), encodedBy 0xF0FF 0xF065 (.ldXMem x) ∧
    (s.i.toNat + x.val ≤ 0xFFF →
      ∃ t, exec (.ldXMem x) s = .next t ∧
        (∀ k : Reg, k.val ≤ x.val → t.getV k = s.byteAt (s.i.toNat + k.val)) ∧
        t.i.toNat = s.i.toNat + x.val + 1 ∧ t.pc = s.pc + 2 ∧ t.mem = s.mem ∧
        changesOnly (.index :: .pc :: regsThrough x) s t) ∧
    (s.i.toNat + x.val > 0xFFF →
      ∃ t, exec (.ldXMem x) s = .next t ∧
        haltedFrom Config.hardware (fatalRecord .memRange (encode (.ldXMem x)) s.pc) s t)

/-- R236's corner case: FX55 then FX65 with the same X, at any later state with the same memory and I set back, restores
V0 to V[X]. -/
def Obligations.StoreThenLoadRestoresRegisters : Prop :=
  ∀ (x : Reg) (s t u : State), 0x04F < s.i.toNat → s.i.toNat + x.val ≤ 0xFFF →
    exec (.ldMemX x) s = .next t → u.mem = t.mem → u.i = s.i →
    ∃ w, exec (.ldXMem x) u = .next w ∧ w.i = t.i ∧ ∀ k : Reg, k.val ≤ x.val → w.getV k = s.getV k

/-! ### Keys and timers (45_timer_input.md) -/

/-- R250 and R251: the key skips; a V[X] above 15 names no key (D19). -/
def Obligations.KeySkipsFollowTheHeldKeys : Prop :=
  ∀ (x : Reg) (s : State), encodedBy 0xF0FF 0xE09E (.skp x) ∧ encodedBy 0xF0FF 0xE0A1 (.sknp x) ∧
    ∃ t u, exec (.skp x) s = .next t ∧ exec (.sknp x) s = .next u ∧
      ((∃ k : Fin 16, (s.getV x).toNat = k.val ∧ s.keys[k] = true) → t.pc = s.pc + 4 ∧ u.pc = s.pc + 2) ∧
      (¬ (∃ k : Fin 16, (s.getV x).toNat = k.val ∧ s.keys[k] = true) → t.pc = s.pc + 2 ∧ u.pc = s.pc + 4) ∧
      t.mem = s.mem ∧ u.mem = s.mem ∧ changesOnly [.pc] s t ∧ changesOnly [.pc] s u

/-- R252, R254 and R255: the timer reads and writes; `sound_active` follows FX18 at once. -/
def Obligations.TimerAccessesReadAndWriteTimers : Prop :=
  ∀ (x : Reg) (s : State),
    encodedBy 0xF0FF 0xF007 (.ldXDt x) ∧ encodedBy 0xF0FF 0xF015 (.ldDtX x) ∧ encodedBy 0xF0FF 0xF018 (.ldStX x) ∧
    (∃ t, exec (.ldXDt x) s = .next t ∧ t.getV x = s.dt ∧ t.pc = s.pc + 2 ∧ t.mem = s.mem ∧
      changesOnly [.reg x, .pc] s t) ∧
    (∃ t, exec (.ldDtX x) s = .next t ∧ t.dt = s.getV x ∧ t.pc = s.pc + 2 ∧ t.mem = s.mem ∧
      changesOnly [.delayTimer, .pc] s t) ∧
    (∃ t, exec (.ldStX x) s = .next t ∧ t.st = s.getV x ∧ (t.soundActive = true ↔ (s.getV x).toNat ≠ 0) ∧
      t.pc = s.pc + 2 ∧ t.mem = s.mem ∧ changesOnly [.soundTimer, .pc] s t)

/-- R253: FX0A enters the wait with pc already at the next instruction and with no register written, whatever keys are
held (D18). -/
def Obligations.LdKEntersTheWait : Prop :=
  ∀ (x : Reg) (s : State), encodedBy 0xF0FF 0xF00A (.ldXK x) ∧
    ∃ t, exec (.ldXK x) s = .next t ∧ t.mode = .awaitKey ∧ t.awaitTarget = x ∧ t.pc = s.pc + 2 ∧ t.mem = s.mem ∧
      changesOnly [.mode, .awaitTarget, .pc] s t
end

