-- ==== Sys2Proof/Laws/State.lean ====
section
/-! SUPPORT. One lemma per field per update of the state, true by `rfl`, so that no proof unfolds an update. -/

namespace Sys2Proof.Machine

/-! ### setV: `V[r] <- w` -/

@[simp] theorem State.setV_v (r : Reg) (w : Byte) (s : State) : (State.setV r w s).v = s.v.set r w := rfl
@[simp] theorem State.setV_i (r : Reg) (w : Byte) (s : State) : (State.setV r w s).i = s.i := rfl
@[simp] theorem State.setV_pc (r : Reg) (w : Byte) (s : State) : (State.setV r w s).pc = s.pc := rfl
@[simp] theorem State.setV_stack (r : Reg) (w : Byte) (s : State) : (State.setV r w s).stack = s.stack := rfl
@[simp] theorem State.setV_sp (r : Reg) (w : Byte) (s : State) : (State.setV r w s).sp = s.sp := rfl
@[simp] theorem State.setV_dt (r : Reg) (w : Byte) (s : State) : (State.setV r w s).dt = s.dt := rfl
@[simp] theorem State.setV_st (r : Reg) (w : Byte) (s : State) : (State.setV r w s).st = s.st := rfl
@[simp] theorem State.setV_fb (r : Reg) (w : Byte) (s : State) : (State.setV r w s).fb = s.fb := rfl
@[simp] theorem State.setV_keys (r : Reg) (w : Byte) (s : State) : (State.setV r w s).keys = s.keys := rfl
@[simp] theorem State.setV_mode (r : Reg) (w : Byte) (s : State) : (State.setV r w s).mode = s.mode := rfl
@[simp] theorem State.setV_awaitTarget (r : Reg) (w : Byte) (s : State) : (State.setV r w s).awaitTarget = s.awaitTarget := rfl
@[simp] theorem State.setV_fault (r : Reg) (w : Byte) (s : State) : (State.setV r w s).fault = s.fault := rfl
@[simp] theorem State.setV_mem (r : Reg) (w : Byte) (s : State) : (State.setV r w s).mem = s.mem := rfl
@[simp] theorem State.setV_fbChanged (r : Reg) (w : Byte) (s : State) : (State.setV r w s).fbChanged = s.fbChanged := rfl
@[simp] theorem State.setV_loadResult (r : Reg) (w : Byte) (s : State) : (State.setV r w s).loadResult = s.loadResult := rfl
@[simp] theorem State.setV_rndDraws (r : Reg) (w : Byte) (s : State) : (State.setV r w s).rndDraws = s.rndDraws := rfl
@[simp] theorem State.setV_schedule (r : Reg) (w : Byte) (s : State) : (State.setV r w s).schedule = s.schedule := rfl

/-! ### setVFlag: a result, then VF -/

@[simp] theorem State.setVFlag_v (x : Reg) (r f : Byte) (s : State) : (State.setVFlag x r f s).v = (s.v.set x r).set vF f := rfl
@[simp] theorem State.setVFlag_i (x : Reg) (r f : Byte) (s : State) : (State.setVFlag x r f s).i = s.i := rfl
@[simp] theorem State.setVFlag_pc (x : Reg) (r f : Byte) (s : State) : (State.setVFlag x r f s).pc = s.pc := rfl
@[simp] theorem State.setVFlag_stack (x : Reg) (r f : Byte) (s : State) : (State.setVFlag x r f s).stack = s.stack := rfl
@[simp] theorem State.setVFlag_sp (x : Reg) (r f : Byte) (s : State) : (State.setVFlag x r f s).sp = s.sp := rfl
@[simp] theorem State.setVFlag_dt (x : Reg) (r f : Byte) (s : State) : (State.setVFlag x r f s).dt = s.dt := rfl
@[simp] theorem State.setVFlag_st (x : Reg) (r f : Byte) (s : State) : (State.setVFlag x r f s).st = s.st := rfl
@[simp] theorem State.setVFlag_fb (x : Reg) (r f : Byte) (s : State) : (State.setVFlag x r f s).fb = s.fb := rfl
@[simp] theorem State.setVFlag_keys (x : Reg) (r f : Byte) (s : State) : (State.setVFlag x r f s).keys = s.keys := rfl
@[simp] theorem State.setVFlag_mode (x : Reg) (r f : Byte) (s : State) : (State.setVFlag x r f s).mode = s.mode := rfl
@[simp] theorem State.setVFlag_awaitTarget (x : Reg) (r f : Byte) (s : State) : (State.setVFlag x r f s).awaitTarget = s.awaitTarget := rfl
@[simp] theorem State.setVFlag_fault (x : Reg) (r f : Byte) (s : State) : (State.setVFlag x r f s).fault = s.fault := rfl
@[simp] theorem State.setVFlag_mem (x : Reg) (r f : Byte) (s : State) : (State.setVFlag x r f s).mem = s.mem := rfl
@[simp] theorem State.setVFlag_fbChanged (x : Reg) (r f : Byte) (s : State) : (State.setVFlag x r f s).fbChanged = s.fbChanged := rfl
@[simp] theorem State.setVFlag_loadResult (x : Reg) (r f : Byte) (s : State) : (State.setVFlag x r f s).loadResult = s.loadResult := rfl
@[simp] theorem State.setVFlag_rndDraws (x : Reg) (r f : Byte) (s : State) : (State.setVFlag x r f s).rndDraws = s.rndDraws := rfl
@[simp] theorem State.setVFlag_schedule (x : Reg) (r f : Byte) (s : State) : (State.setVFlag x r f s).schedule = s.schedule := rfl

/-! ### setI: `I <- w` -/

@[simp] theorem State.setI_v (w : Word) (s : State) : (State.setI w s).v = s.v := rfl
@[simp] theorem State.setI_i (w : Word) (s : State) : (State.setI w s).i = w := rfl
@[simp] theorem State.setI_pc (w : Word) (s : State) : (State.setI w s).pc = s.pc := rfl
@[simp] theorem State.setI_stack (w : Word) (s : State) : (State.setI w s).stack = s.stack := rfl
@[simp] theorem State.setI_sp (w : Word) (s : State) : (State.setI w s).sp = s.sp := rfl
@[simp] theorem State.setI_dt (w : Word) (s : State) : (State.setI w s).dt = s.dt := rfl
@[simp] theorem State.setI_st (w : Word) (s : State) : (State.setI w s).st = s.st := rfl
@[simp] theorem State.setI_fb (w : Word) (s : State) : (State.setI w s).fb = s.fb := rfl
@[simp] theorem State.setI_keys (w : Word) (s : State) : (State.setI w s).keys = s.keys := rfl
@[simp] theorem State.setI_mode (w : Word) (s : State) : (State.setI w s).mode = s.mode := rfl
@[simp] theorem State.setI_awaitTarget (w : Word) (s : State) : (State.setI w s).awaitTarget = s.awaitTarget := rfl
@[simp] theorem State.setI_fault (w : Word) (s : State) : (State.setI w s).fault = s.fault := rfl
@[simp] theorem State.setI_mem (w : Word) (s : State) : (State.setI w s).mem = s.mem := rfl
@[simp] theorem State.setI_fbChanged (w : Word) (s : State) : (State.setI w s).fbChanged = s.fbChanged := rfl
@[simp] theorem State.setI_loadResult (w : Word) (s : State) : (State.setI w s).loadResult = s.loadResult := rfl
@[simp] theorem State.setI_rndDraws (w : Word) (s : State) : (State.setI w s).rndDraws = s.rndDraws := rfl
@[simp] theorem State.setI_schedule (w : Word) (s : State) : (State.setI w s).schedule = s.schedule := rfl

/-! ### advanceI: `I <- u16(I + X + 1)` -/

@[simp] theorem State.advanceI_v (x : Reg) (s : State) : (State.advanceI x s).v = s.v := rfl
@[simp] theorem State.advanceI_i (x : Reg) (s : State) : (State.advanceI x s).i = s.i + BitVec.ofNat 16 (x.val + 1) := rfl
@[simp] theorem State.advanceI_pc (x : Reg) (s : State) : (State.advanceI x s).pc = s.pc := rfl
@[simp] theorem State.advanceI_stack (x : Reg) (s : State) : (State.advanceI x s).stack = s.stack := rfl
@[simp] theorem State.advanceI_sp (x : Reg) (s : State) : (State.advanceI x s).sp = s.sp := rfl
@[simp] theorem State.advanceI_dt (x : Reg) (s : State) : (State.advanceI x s).dt = s.dt := rfl
@[simp] theorem State.advanceI_st (x : Reg) (s : State) : (State.advanceI x s).st = s.st := rfl
@[simp] theorem State.advanceI_fb (x : Reg) (s : State) : (State.advanceI x s).fb = s.fb := rfl
@[simp] theorem State.advanceI_keys (x : Reg) (s : State) : (State.advanceI x s).keys = s.keys := rfl
@[simp] theorem State.advanceI_mode (x : Reg) (s : State) : (State.advanceI x s).mode = s.mode := rfl
@[simp] theorem State.advanceI_awaitTarget (x : Reg) (s : State) : (State.advanceI x s).awaitTarget = s.awaitTarget := rfl
@[simp] theorem State.advanceI_fault (x : Reg) (s : State) : (State.advanceI x s).fault = s.fault := rfl
@[simp] theorem State.advanceI_mem (x : Reg) (s : State) : (State.advanceI x s).mem = s.mem := rfl
@[simp] theorem State.advanceI_fbChanged (x : Reg) (s : State) : (State.advanceI x s).fbChanged = s.fbChanged := rfl
@[simp] theorem State.advanceI_loadResult (x : Reg) (s : State) : (State.advanceI x s).loadResult = s.loadResult := rfl
@[simp] theorem State.advanceI_rndDraws (x : Reg) (s : State) : (State.advanceI x s).rndDraws = s.rndDraws := rfl
@[simp] theorem State.advanceI_schedule (x : Reg) (s : State) : (State.advanceI x s).schedule = s.schedule := rfl

/-! ### setPc: `pc <- w` -/

@[simp] theorem State.setPc_v (w : Word) (s : State) : (State.setPc w s).v = s.v := rfl
@[simp] theorem State.setPc_i (w : Word) (s : State) : (State.setPc w s).i = s.i := rfl
@[simp] theorem State.setPc_pc (w : Word) (s : State) : (State.setPc w s).pc = w := rfl
@[simp] theorem State.setPc_stack (w : Word) (s : State) : (State.setPc w s).stack = s.stack := rfl
@[simp] theorem State.setPc_sp (w : Word) (s : State) : (State.setPc w s).sp = s.sp := rfl
@[simp] theorem State.setPc_dt (w : Word) (s : State) : (State.setPc w s).dt = s.dt := rfl
@[simp] theorem State.setPc_st (w : Word) (s : State) : (State.setPc w s).st = s.st := rfl
@[simp] theorem State.setPc_fb (w : Word) (s : State) : (State.setPc w s).fb = s.fb := rfl
@[simp] theorem State.setPc_keys (w : Word) (s : State) : (State.setPc w s).keys = s.keys := rfl
@[simp] theorem State.setPc_mode (w : Word) (s : State) : (State.setPc w s).mode = s.mode := rfl
@[simp] theorem State.setPc_awaitTarget (w : Word) (s : State) : (State.setPc w s).awaitTarget = s.awaitTarget := rfl
@[simp] theorem State.setPc_fault (w : Word) (s : State) : (State.setPc w s).fault = s.fault := rfl
@[simp] theorem State.setPc_mem (w : Word) (s : State) : (State.setPc w s).mem = s.mem := rfl
@[simp] theorem State.setPc_fbChanged (w : Word) (s : State) : (State.setPc w s).fbChanged = s.fbChanged := rfl
@[simp] theorem State.setPc_loadResult (w : Word) (s : State) : (State.setPc w s).loadResult = s.loadResult := rfl
@[simp] theorem State.setPc_rndDraws (w : Word) (s : State) : (State.setPc w s).rndDraws = s.rndDraws := rfl
@[simp] theorem State.setPc_schedule (w : Word) (s : State) : (State.setPc w s).schedule = s.schedule := rfl

/-! ### toNext: `pc <- NEXT` -/

@[simp] theorem State.toNext_v (s : State) : (State.toNext s).v = s.v := rfl
@[simp] theorem State.toNext_i (s : State) : (State.toNext s).i = s.i := rfl
@[simp] theorem State.toNext_pc (s : State) : (State.toNext s).pc = s.pc + 2 := rfl
@[simp] theorem State.toNext_stack (s : State) : (State.toNext s).stack = s.stack := rfl
@[simp] theorem State.toNext_sp (s : State) : (State.toNext s).sp = s.sp := rfl
@[simp] theorem State.toNext_dt (s : State) : (State.toNext s).dt = s.dt := rfl
@[simp] theorem State.toNext_st (s : State) : (State.toNext s).st = s.st := rfl
@[simp] theorem State.toNext_fb (s : State) : (State.toNext s).fb = s.fb := rfl
@[simp] theorem State.toNext_keys (s : State) : (State.toNext s).keys = s.keys := rfl
@[simp] theorem State.toNext_mode (s : State) : (State.toNext s).mode = s.mode := rfl
@[simp] theorem State.toNext_awaitTarget (s : State) : (State.toNext s).awaitTarget = s.awaitTarget := rfl
@[simp] theorem State.toNext_fault (s : State) : (State.toNext s).fault = s.fault := rfl
@[simp] theorem State.toNext_mem (s : State) : (State.toNext s).mem = s.mem := rfl
@[simp] theorem State.toNext_fbChanged (s : State) : (State.toNext s).fbChanged = s.fbChanged := rfl
@[simp] theorem State.toNext_loadResult (s : State) : (State.toNext s).loadResult = s.loadResult := rfl
@[simp] theorem State.toNext_rndDraws (s : State) : (State.toNext s).rndDraws = s.rndDraws := rfl
@[simp] theorem State.toNext_schedule (s : State) : (State.toNext s).schedule = s.schedule := rfl

/-! ### toSkip: `pc <- SKIP` -/

@[simp] theorem State.toSkip_v (s : State) : (State.toSkip s).v = s.v := rfl
@[simp] theorem State.toSkip_i (s : State) : (State.toSkip s).i = s.i := rfl
@[simp] theorem State.toSkip_pc (s : State) : (State.toSkip s).pc = s.pc + 4 := rfl
@[simp] theorem State.toSkip_stack (s : State) : (State.toSkip s).stack = s.stack := rfl
@[simp] theorem State.toSkip_sp (s : State) : (State.toSkip s).sp = s.sp := rfl
@[simp] theorem State.toSkip_dt (s : State) : (State.toSkip s).dt = s.dt := rfl
@[simp] theorem State.toSkip_st (s : State) : (State.toSkip s).st = s.st := rfl
@[simp] theorem State.toSkip_fb (s : State) : (State.toSkip s).fb = s.fb := rfl
@[simp] theorem State.toSkip_keys (s : State) : (State.toSkip s).keys = s.keys := rfl
@[simp] theorem State.toSkip_mode (s : State) : (State.toSkip s).mode = s.mode := rfl
@[simp] theorem State.toSkip_awaitTarget (s : State) : (State.toSkip s).awaitTarget = s.awaitTarget := rfl
@[simp] theorem State.toSkip_fault (s : State) : (State.toSkip s).fault = s.fault := rfl
@[simp] theorem State.toSkip_mem (s : State) : (State.toSkip s).mem = s.mem := rfl
@[simp] theorem State.toSkip_fbChanged (s : State) : (State.toSkip s).fbChanged = s.fbChanged := rfl
@[simp] theorem State.toSkip_loadResult (s : State) : (State.toSkip s).loadResult = s.loadResult := rfl
@[simp] theorem State.toSkip_rndDraws (s : State) : (State.toSkip s).rndDraws = s.rndDraws := rfl
@[simp] theorem State.toSkip_schedule (s : State) : (State.toSkip s).schedule = s.schedule := rfl

/-! ### writeMem: one byte written -/

@[simp] theorem State.writeMem_v (c : Config) (a : Nat) (w : Byte) (s : State) : (State.writeMem c a w s).v = s.v := rfl
@[simp] theorem State.writeMem_i (c : Config) (a : Nat) (w : Byte) (s : State) : (State.writeMem c a w s).i = s.i := rfl
@[simp] theorem State.writeMem_pc (c : Config) (a : Nat) (w : Byte) (s : State) : (State.writeMem c a w s).pc = s.pc := rfl
@[simp] theorem State.writeMem_stack (c : Config) (a : Nat) (w : Byte) (s : State) : (State.writeMem c a w s).stack = s.stack := rfl
@[simp] theorem State.writeMem_sp (c : Config) (a : Nat) (w : Byte) (s : State) : (State.writeMem c a w s).sp = s.sp := rfl
@[simp] theorem State.writeMem_dt (c : Config) (a : Nat) (w : Byte) (s : State) : (State.writeMem c a w s).dt = s.dt := rfl
@[simp] theorem State.writeMem_st (c : Config) (a : Nat) (w : Byte) (s : State) : (State.writeMem c a w s).st = s.st := rfl
@[simp] theorem State.writeMem_fb (c : Config) (a : Nat) (w : Byte) (s : State) : (State.writeMem c a w s).fb = s.fb := rfl
@[simp] theorem State.writeMem_keys (c : Config) (a : Nat) (w : Byte) (s : State) : (State.writeMem c a w s).keys = s.keys := rfl
@[simp] theorem State.writeMem_mode (c : Config) (a : Nat) (w : Byte) (s : State) : (State.writeMem c a w s).mode = s.mode := rfl
@[simp] theorem State.writeMem_awaitTarget (c : Config) (a : Nat) (w : Byte) (s : State) : (State.writeMem c a w s).awaitTarget = s.awaitTarget := rfl
@[simp] theorem State.writeMem_fault (c : Config) (a : Nat) (w : Byte) (s : State) : (State.writeMem c a w s).fault = s.fault := rfl
@[simp] theorem State.writeMem_mem (c : Config) (a : Nat) (w : Byte) (s : State) : (State.writeMem c a w s).mem = s.mem.write c a w := rfl
@[simp] theorem State.writeMem_fbChanged (c : Config) (a : Nat) (w : Byte) (s : State) : (State.writeMem c a w s).fbChanged = s.fbChanged := rfl
@[simp] theorem State.writeMem_loadResult (c : Config) (a : Nat) (w : Byte) (s : State) : (State.writeMem c a w s).loadResult = s.loadResult := rfl
@[simp] theorem State.writeMem_rndDraws (c : Config) (a : Nat) (w : Byte) (s : State) : (State.writeMem c a w s).rndDraws = s.rndDraws := rfl
@[simp] theorem State.writeMem_schedule (c : Config) (a : Nat) (w : Byte) (s : State) : (State.writeMem c a w s).schedule = s.schedule := rfl

/-! ### writeBytes: bytes written from a base -/

@[simp] theorem State.writeBytes_v (c : Config) (base : Nat) (ws : List Byte) (s : State) : (State.writeBytes c base ws s).v = s.v := rfl
@[simp] theorem State.writeBytes_i (c : Config) (base : Nat) (ws : List Byte) (s : State) : (State.writeBytes c base ws s).i = s.i := rfl
@[simp] theorem State.writeBytes_pc (c : Config) (base : Nat) (ws : List Byte) (s : State) : (State.writeBytes c base ws s).pc = s.pc := rfl
@[simp] theorem State.writeBytes_stack (c : Config) (base : Nat) (ws : List Byte) (s : State) : (State.writeBytes c base ws s).stack = s.stack := rfl
@[simp] theorem State.writeBytes_sp (c : Config) (base : Nat) (ws : List Byte) (s : State) : (State.writeBytes c base ws s).sp = s.sp := rfl
@[simp] theorem State.writeBytes_dt (c : Config) (base : Nat) (ws : List Byte) (s : State) : (State.writeBytes c base ws s).dt = s.dt := rfl
@[simp] theorem State.writeBytes_st (c : Config) (base : Nat) (ws : List Byte) (s : State) : (State.writeBytes c base ws s).st = s.st := rfl
@[simp] theorem State.writeBytes_fb (c : Config) (base : Nat) (ws : List Byte) (s : State) : (State.writeBytes c base ws s).fb = s.fb := rfl
@[simp] theorem State.writeBytes_keys (c : Config) (base : Nat) (ws : List Byte) (s : State) : (State.writeBytes c base ws s).keys = s.keys := rfl
@[simp] theorem State.writeBytes_mode (c : Config) (base : Nat) (ws : List Byte) (s : State) : (State.writeBytes c base ws s).mode = s.mode := rfl
@[simp] theorem State.writeBytes_awaitTarget (c : Config) (base : Nat) (ws : List Byte) (s : State) : (State.writeBytes c base ws s).awaitTarget = s.awaitTarget := rfl
@[simp] theorem State.writeBytes_fault (c : Config) (base : Nat) (ws : List Byte) (s : State) : (State.writeBytes c base ws s).fault = s.fault := rfl
@[simp] theorem State.writeBytes_mem (c : Config) (base : Nat) (ws : List Byte) (s : State) : (State.writeBytes c base ws s).mem = ws.zipIdx.foldl (fun m e => m.write c (base + e.2) e.1) s.mem := rfl
@[simp] theorem State.writeBytes_fbChanged (c : Config) (base : Nat) (ws : List Byte) (s : State) : (State.writeBytes c base ws s).fbChanged = s.fbChanged := rfl
@[simp] theorem State.writeBytes_loadResult (c : Config) (base : Nat) (ws : List Byte) (s : State) : (State.writeBytes c base ws s).loadResult = s.loadResult := rfl
@[simp] theorem State.writeBytes_rndDraws (c : Config) (base : Nat) (ws : List Byte) (s : State) : (State.writeBytes c base ws s).rndDraws = s.rndDraws := rfl
@[simp] theorem State.writeBytes_schedule (c : Config) (base : Nat) (ws : List Byte) (s : State) : (State.writeBytes c base ws s).schedule = s.schedule := rfl

/-! ### enterHalt: `raise Fatal` -/

@[simp] theorem State.enterHalt_v (k : FaultCause) (op : Word) (s : State) : (State.enterHalt k op s).v = s.v := rfl
@[simp] theorem State.enterHalt_i (k : FaultCause) (op : Word) (s : State) : (State.enterHalt k op s).i = s.i := rfl
@[simp] theorem State.enterHalt_pc (k : FaultCause) (op : Word) (s : State) : (State.enterHalt k op s).pc = s.pc := rfl
@[simp] theorem State.enterHalt_stack (k : FaultCause) (op : Word) (s : State) : (State.enterHalt k op s).stack = s.stack := rfl
@[simp] theorem State.enterHalt_sp (k : FaultCause) (op : Word) (s : State) : (State.enterHalt k op s).sp = s.sp := rfl
@[simp] theorem State.enterHalt_dt (k : FaultCause) (op : Word) (s : State) : (State.enterHalt k op s).dt = s.dt := rfl
@[simp] theorem State.enterHalt_st (k : FaultCause) (op : Word) (s : State) : (State.enterHalt k op s).st = s.st := rfl
@[simp] theorem State.enterHalt_fb (k : FaultCause) (op : Word) (s : State) : (State.enterHalt k op s).fb = s.fb := rfl
@[simp] theorem State.enterHalt_keys (k : FaultCause) (op : Word) (s : State) : (State.enterHalt k op s).keys = s.keys := rfl
@[simp] theorem State.enterHalt_mode (k : FaultCause) (op : Word) (s : State) : (State.enterHalt k op s).mode = .halted := rfl
@[simp] theorem State.enterHalt_awaitTarget (k : FaultCause) (op : Word) (s : State) : (State.enterHalt k op s).awaitTarget = s.awaitTarget := rfl
@[simp] theorem State.enterHalt_fault (k : FaultCause) (op : Word) (s : State) : (State.enterHalt k op s).fault = ⟨k, if k = .fetchRange then 0 else op, decide (k ≠ .fetchRange), s.pc⟩ := rfl
@[simp] theorem State.enterHalt_mem (k : FaultCause) (op : Word) (s : State) : (State.enterHalt k op s).mem = s.mem := rfl
@[simp] theorem State.enterHalt_fbChanged (k : FaultCause) (op : Word) (s : State) : (State.enterHalt k op s).fbChanged = s.fbChanged := rfl
@[simp] theorem State.enterHalt_loadResult (k : FaultCause) (op : Word) (s : State) : (State.enterHalt k op s).loadResult = s.loadResult := rfl
@[simp] theorem State.enterHalt_rndDraws (k : FaultCause) (op : Word) (s : State) : (State.enterHalt k op s).rndDraws = s.rndDraws := rfl
@[simp] theorem State.enterHalt_schedule (k : FaultCause) (op : Word) (s : State) : (State.enterHalt k op s).schedule = s.schedule := rfl

/-! ### beginEvent: the state as an event finds it -/

@[simp] theorem State.beginEvent_v (s : State) : (State.beginEvent s).v = s.v := rfl
@[simp] theorem State.beginEvent_i (s : State) : (State.beginEvent s).i = s.i := rfl
@[simp] theorem State.beginEvent_pc (s : State) : (State.beginEvent s).pc = s.pc := rfl
@[simp] theorem State.beginEvent_stack (s : State) : (State.beginEvent s).stack = s.stack := rfl
@[simp] theorem State.beginEvent_sp (s : State) : (State.beginEvent s).sp = s.sp := rfl
@[simp] theorem State.beginEvent_dt (s : State) : (State.beginEvent s).dt = s.dt := rfl
@[simp] theorem State.beginEvent_st (s : State) : (State.beginEvent s).st = s.st := rfl
@[simp] theorem State.beginEvent_fb (s : State) : (State.beginEvent s).fb = s.fb := rfl
@[simp] theorem State.beginEvent_keys (s : State) : (State.beginEvent s).keys = s.keys := rfl
@[simp] theorem State.beginEvent_mode (s : State) : (State.beginEvent s).mode = s.mode := rfl
@[simp] theorem State.beginEvent_awaitTarget (s : State) : (State.beginEvent s).awaitTarget = s.awaitTarget := rfl
@[simp] theorem State.beginEvent_fault (s : State) : (State.beginEvent s).fault = s.fault := rfl
@[simp] theorem State.beginEvent_mem (s : State) : (State.beginEvent s).mem = s.mem := rfl
@[simp] theorem State.beginEvent_fbChanged (s : State) : (State.beginEvent s).fbChanged = false := rfl
@[simp] theorem State.beginEvent_loadResult (s : State) : (State.beginEvent s).loadResult = none := rfl
@[simp] theorem State.beginEvent_rndDraws (s : State) : (State.beginEvent s).rndDraws = s.rndDraws := rfl
@[simp] theorem State.beginEvent_schedule (s : State) : (State.beginEvent s).schedule = s.schedule.tail := rfl

/-! ### skipIf: the end of a conditional skip -/

@[simp] theorem State.skipIf_v (b : Bool) (s : State) : (State.skipIf b s).v = s.v := by cases b <;> rfl
@[simp] theorem State.skipIf_i (b : Bool) (s : State) : (State.skipIf b s).i = s.i := by cases b <;> rfl
@[simp] theorem State.skipIf_pc (b : Bool) (s : State) : (State.skipIf b s).pc = if b then s.pc + 4 else s.pc + 2 := by cases b <;> rfl
@[simp] theorem State.skipIf_stack (b : Bool) (s : State) : (State.skipIf b s).stack = s.stack := by cases b <;> rfl
@[simp] theorem State.skipIf_sp (b : Bool) (s : State) : (State.skipIf b s).sp = s.sp := by cases b <;> rfl
@[simp] theorem State.skipIf_dt (b : Bool) (s : State) : (State.skipIf b s).dt = s.dt := by cases b <;> rfl
@[simp] theorem State.skipIf_st (b : Bool) (s : State) : (State.skipIf b s).st = s.st := by cases b <;> rfl
@[simp] theorem State.skipIf_fb (b : Bool) (s : State) : (State.skipIf b s).fb = s.fb := by cases b <;> rfl
@[simp] theorem State.skipIf_keys (b : Bool) (s : State) : (State.skipIf b s).keys = s.keys := by cases b <;> rfl
@[simp] theorem State.skipIf_mode (b : Bool) (s : State) : (State.skipIf b s).mode = s.mode := by cases b <;> rfl
@[simp] theorem State.skipIf_awaitTarget (b : Bool) (s : State) : (State.skipIf b s).awaitTarget = s.awaitTarget := by cases b <;> rfl
@[simp] theorem State.skipIf_fault (b : Bool) (s : State) : (State.skipIf b s).fault = s.fault := by cases b <;> rfl
@[simp] theorem State.skipIf_mem (b : Bool) (s : State) : (State.skipIf b s).mem = s.mem := by cases b <;> rfl
@[simp] theorem State.skipIf_fbChanged (b : Bool) (s : State) : (State.skipIf b s).fbChanged = s.fbChanged := by cases b <;> rfl
@[simp] theorem State.skipIf_loadResult (b : Bool) (s : State) : (State.skipIf b s).loadResult = s.loadResult := by cases b <;> rfl
@[simp] theorem State.skipIf_rndDraws (b : Bool) (s : State) : (State.skipIf b s).rndDraws = s.rndDraws := by cases b <;> rfl
@[simp] theorem State.skipIf_schedule (b : Bool) (s : State) : (State.skipIf b s).schedule = s.schedule := by cases b <;> rfl

end Sys2Proof.Machine
end

