-- ==== Sys2Proof/Laws/Memory.lean ====
section
/-! SUPPORT. Memory: a read after a write to the same address gives the value written, a write leaves every other address
alone, and every operation keeps the canonical form. -/

namespace Sys2Proof.Machine

theorem Memory.read_erase_same (c : Config) (m : Memory) (a : Nat) :
    (m.erase a).read c a = Memory.background c a := by
  induction m with
  | nil => rfl
  | cons e rest ih =>
    obtain ⟨b, w⟩ := e
    by_cases h : b = a
    · simpa [Memory.erase, h] using ih
    · have h' : ¬ a = b := fun e => h e.symm
      simpa [Memory.erase, h, Memory.read, h'] using ih

theorem Memory.read_erase_other (c : Config) (m : Memory) {a b : Nat} (h : b ≠ a) :
    (m.erase a).read c b = m.read c b := by
  induction m with
  | nil => rfl
  | cons e rest ih =>
    obtain ⟨k, w⟩ := e
    by_cases hk : k = a
    · subst hk; simpa [Memory.erase, Memory.read, h] using ih
    · by_cases hb : b = k
      · simp [Memory.erase, hk, Memory.read, hb]
      · simpa [Memory.erase, hk, Memory.read, hb] using ih

theorem Memory.read_insert_other (c : Config) (m : Memory) {a b : Nat} (w : Byte) (h : b ≠ a) :
    (m.insert a w).read c b = m.read c b := by
  induction m with
  | nil => simp [Memory.insert, Memory.read, h]
  | cons e rest ih =>
    obtain ⟨k, u⟩ := e
    by_cases hk : a < k
    · simp [Memory.insert, hk, Memory.read, h]
    · by_cases hb : b = k
      · simp [Memory.insert, hk, Memory.read, hb]
      · simpa [Memory.insert, hk, Memory.read, hb] using ih

/-- The byte inserted is the byte read, where memory had no entry for the address. -/
theorem Memory.read_insert_same (c : Config) (m : Memory) (a : Nat) (w : Byte) (h : ∀ e ∈ m, e.1 ≠ a) :
    (m.insert a w).read c a = w := by
  induction m with
  | nil => simp [Memory.insert, Memory.read]
  | cons e rest ih =>
    obtain ⟨k, u⟩ := e
    have hk : a ≠ k := fun e => h (k, u) (by simp) e.symm
    have ih := ih (fun e he => h e (by simp [he]))
    by_cases hl : a < k
    · simp [Memory.insert, hl, Memory.read]
    · simpa [Memory.insert, hl, Memory.read, hk] using ih

/-- A read of the address just written gives the byte written. -/
@[simp] theorem Memory.read_write_same (c : Config) (m : Memory) (a : Nat) (w : Byte) :
    (m.write c a w).read c a = w := by
  unfold Memory.write
  split
  · rename_i h; rw [Memory.read_erase_same, h]
  · exact Memory.read_insert_same c _ a w (by simp [Memory.erase])

/-- A write leaves every other address alone. -/
theorem Memory.read_write_other (c : Config) (m : Memory) {a b : Nat} (w : Byte) (h : b ≠ a) :
    (m.write c a w).read c b = m.read c b := by
  unfold Memory.write
  split
  · exact Memory.read_erase_other c m h
  · rw [Memory.read_insert_other c _ w h, Memory.read_erase_other c m h]

theorem Memory.wf_iff (c : Config) (m : Memory) :
    m.wf c = true ↔ m.Pairwise (fun e f => e.1 < f.1) ∧ ∀ e ∈ m, e.1 ≤ 0xFFF ∧ e.2 ≠ Memory.background c e.1 := by
  simp [Memory.wf]

@[simp] theorem Memory.wf_nil (c : Config) : Memory.wf c [] = true := by simp [Memory.wf]

theorem Memory.mem_insert {m : Memory} {a : Nat} {w : Byte} {e : Host.Cell} (h : e ∈ m.insert a w) :
    e = (a, w) ∨ e ∈ m := by
  induction m with
  | nil => simpa [Memory.insert] using h
  | cons f rest ih =>
    obtain ⟨k, u⟩ := f
    by_cases hl : a < k
    · simpa [Memory.insert, hl] using h
    · simp only [Memory.insert, hl, if_false, List.mem_cons] at h
      rcases h with h | h
      · exact .inr (by simp [h])
      · rcases ih h with h | h
        · exact .inl h
        · exact .inr (by simp [h])

theorem Memory.rising_insert {m : Memory} {a : Nat} {w : Byte} (hm : m.Pairwise (fun e f => e.1 < f.1))
    (ha : ∀ e ∈ m, e.1 ≠ a) : (m.insert a w).Pairwise (fun e f => e.1 < f.1) := by
  induction m with
  | nil => simp [Memory.insert]
  | cons f rest ih =>
    obtain ⟨k, u⟩ := f
    rw [List.pairwise_cons] at hm
    have hk : k ≠ a := ha (k, u) (by simp)
    by_cases hl : a < k
    · simp only [Memory.insert, hl, if_true, List.pairwise_cons]
      refine ⟨fun e he => ?_, hm.1, hm.2⟩
      rcases List.mem_cons.1 he with rfl | he
      · exact hl
      · exact Nat.lt_trans hl (hm.1 e he)
    · simp only [Memory.insert, hl, if_false, List.pairwise_cons]
      refine ⟨fun e he => ?_, ih hm.2 (fun e he => ha e (by simp [he]))⟩
      rcases Memory.mem_insert he with rfl | he
      · show k < a; omega
      · exact hm.1 e he

theorem Memory.mem_of_mem_erase {m : Memory} {a : Nat} {e : Host.Cell} (h : e ∈ m.erase a) : e ∈ m ∧ e.1 ≠ a := by
  simpa [Memory.erase] using h

/-- What a write leaves in the list: the cell written, unless its byte is the background, and cells that were there. -/
theorem Memory.mem_write {c : Config} {m : Memory} {a : Nat} {w : Byte} {e : Host.Cell} (h : e ∈ m.write c a w) :
    (e = (a, w) ∧ w ≠ Memory.background c a) ∨ e ∈ m := by
  unfold Memory.write at h
  split at h
  · exact .inr (Memory.mem_of_mem_erase h).1
  · rcases Memory.mem_insert h with rfl | h
    · exact .inl ⟨rfl, ‹_›⟩
    · exact .inr (Memory.mem_of_mem_erase h).1

/-- A write inside the address space keeps the canonical form. -/
theorem Memory.wf_write {c : Config} {m : Memory} {a : Nat} (w : Byte) (hm : m.wf c = true) (ha : a ≤ 0xFFF) :
    (m.write c a w).wf c = true := by
  rw [Memory.wf_iff] at hm ⊢
  constructor
  · have he : (m.erase a).Pairwise (fun e f => e.1 < f.1) := hm.1.filter _
    unfold Memory.write
    split
    · exact he
    · exact Memory.rising_insert he (fun e h => (Memory.mem_of_mem_erase h).2)
  · intro e he
    rcases Memory.mem_write he with ⟨rfl, hw⟩ | he
    · exact ⟨ha, hw⟩
    · exact hm.2 e he

/-- Writing several bytes, said as a recursion on them. -/
theorem State.writeBytes_nil (c : Config) (base : Nat) (s : State) : State.writeBytes c base [] s = s := rfl

theorem zipIdx_foldl_shift {α β : Type} (f : β → α → Nat → β) (ws : List α) (n : Nat) (m : β) :
    (ws.zipIdx (n + 1)).foldl (fun m e => f m e.1 e.2) m = (ws.zipIdx n).foldl (fun m e => f m e.1 (e.2 + 1)) m := by
  induction ws generalizing n m with
  | nil => rfl
  | cons w rest ih => simp only [List.zipIdx_cons, List.foldl_cons]; exact ih (n + 1) _

theorem State.writeBytes_cons (c : Config) (base : Nat) (w : Byte) (ws : List Byte) (s : State) :
    State.writeBytes c base (w :: ws) s = State.writeBytes c (base + 1) ws (State.writeMem c base w s) := by
  simp only [State.writeBytes, State.writeMem, List.zipIdx_cons, List.foldl_cons, Nat.add_zero, Nat.zero_add]
  congr 1
  rw [zipIdx_foldl_shift (fun m e n => Memory.write c m (base + n) e) ws 0]
  simp only [Nat.add_assoc, Nat.add_comm 1]

/-- `readMem` sees only memory. -/
theorem State.readMem_congr {c : Config} {s t : State} (h : t.mem = s.mem) (a : Nat) : t.readMem c a = s.readMem c a := by
  simp [State.readMem, h]

/-- A byte outside those written reads as before. -/
theorem State.readMem_writeBytes_other (c : Config) (ws : List Byte) (base : Nat) (s : State) {a : Nat}
    (h : a < base ∨ base + ws.length ≤ a) : (State.writeBytes c base ws s).readMem c a = s.readMem c a := by
  induction ws generalizing base s with
  | nil => rfl
  | cons w rest ih =>
    simp only [List.length_cons] at h
    rw [State.writeBytes_cons, ih (base + 1) _ (by omega)]
    exact Memory.read_write_other c s.mem w (by omega)

/-- Each byte written reads as the byte written there. -/
theorem State.readMem_writeBytes_same (c : Config) (ws : List Byte) (base : Nat) (s : State) (k : Nat)
    (h : k < ws.length) : (State.writeBytes c base ws s).readMem c (base + k) = ws[k] := by
  induction ws generalizing base s k with
  | nil => simp at h
  | cons w rest ih =>
    rw [State.writeBytes_cons]
    cases k with
    | zero =>
      rw [State.readMem_writeBytes_other c rest (base + 1) _ (by omega)]
      exact Memory.read_write_same c s.mem base w
    | succ k =>
      have := ih (base + 1) (State.writeMem c base w s) k (by simpa using h)
      simpa [Nat.add_assoc, Nat.add_comm 1] using this

/-- Every cell after several writes was there before or lies in the span written. -/
theorem State.mem_writeBytes {c : Config} {ws : List Byte} {base : Nat} {s : State} {e : Host.Cell}
    (h : e ∈ (State.writeBytes c base ws s).mem) : e ∈ s.mem ∨ (base ≤ e.1 ∧ e.1 < base + ws.length) := by
  induction ws generalizing base s with
  | nil => exact .inl h
  | cons w rest ih =>
    rw [State.writeBytes_cons] at h
    simp only [List.length_cons]
    rcases ih h with h | h
    · rcases Memory.mem_write h with ⟨rfl, -⟩ | h
      · exact .inr ⟨Nat.le_refl _, by simp⟩
      · exact .inl h
    · exact .inr ⟨by omega, by omega⟩

/-- Writing bytes inside the address space keeps the canonical form. -/
theorem State.wf_writeBytes {c : Config} {ws : List Byte} {base : Nat} {s : State} (hs : s.mem.wf c = true)
    (h : base + ws.length ≤ 0x1000) : (State.writeBytes c base ws s).mem.wf c = true := by
  induction ws generalizing base s with
  | nil => exact hs
  | cons w rest ih =>
    simp only [List.length_cons] at h
    rw [State.writeBytes_cons]
    exact ih (Memory.wf_write w hs (by omega)) (by omega)

end Sys2Proof.Machine
end

