-- ==== Sys2Proof/Laws/Ops.lean ====
section
/-! SUPPORT. What each shared operation can do, said once: register reads after writes, the stack, the checks, the
entry into `HALTED`, and the end of an instruction. -/

namespace Sys2Proof.Machine

/-! ### Registers -/

@[simp] theorem State.getV_setV_same (r : Reg) (w : Byte) (s : State) : (State.setV r w s).getV r = w := by
  simp [State.getV]

theorem State.getV_setV_other {r q : Reg} (w : Byte) (s : State) (h : q ≠ r) :
    (State.setV r w s).getV q = s.getV q := by
  have : r.val ≠ q.val := fun e => h (Fin.ext e.symm)
  simp [State.getV, this]

theorem State.getV_setV (r q : Reg) (w : Byte) (s : State) :
    (State.setV r w s).getV q = if q = r then w else s.getV q := by
  split
  · subst q; simp
  · exact State.getV_setV_other w s ‹_›

/-- A state whose registers are those of another reads the same. -/
theorem State.getV_congr {s t : State} (h : t.v = s.v) (r : Reg) : t.getV r = s.getV r := by simp [State.getV, h]

/-- VF holds the flag, whichever register the result went to (R137). -/
@[simp] theorem State.getV_setVFlag_vF (x : Reg) (r f : Byte) (s : State) : (State.setVFlag x r f s).getV vF = f :=
  State.getV_setV_same vF f _

theorem State.getV_setVFlag (x q : Reg) (r f : Byte) (s : State) :
    (State.setVFlag x r f s).getV q = if q = vF then f else if q = x then r else s.getV q := by
  rw [State.setVFlag, State.getV_setV, State.getV_setV]

/-! ### The call stack -/

theorem push_ok (w : Word) (s : State) (h : s.sp.val < 16) :
    push w s = .ok { s with stack := s.stack.set s.sp.val w h, sp := ⟨s.sp.val + 1, by omega⟩ } := by
  simp [push, h]

theorem push_full (w : Word) (s : State) (h : s.sp.val = 16) : push w s = .error .stackOverflow := by
  simp [push, h]

theorem pop_ok (s : State) (h : s.sp.val ≠ 0) :
    pop s = .ok (s.stack[s.sp.val - 1]'(by omega), { s with sp := ⟨s.sp.val - 1, by omega⟩ }) := by
  simp [pop, h]

theorem pop_empty (s : State) (h : s.sp.val = 0) : pop s = .error .stackUnderflow := by
  simp [pop, h]

/-! ### Address spans and their checks -/

theorem mem_addressSpan {base n a : Nat} : a ∈ addressSpan base n ↔ base ≤ a ∧ a < base + n := by
  simp only [addressSpan, List.mem_map, List.mem_range]
  constructor
  · rintro ⟨k, hk, rfl⟩; omega
  · exact fun h => ⟨a - base, by omega, by omega⟩

theorem addressSpan_succ (base n : Nat) : addressSpan base (n + 1) = base :: addressSpan (base + 1) n := by
  simp only [addressSpan, List.range_succ_eq_map, List.map_cons, List.map_map, Nat.add_zero]
  congr 1
  exact List.map_congr_left (fun k _ => by simp only [Function.comp]; omega)

/-- The read checks of a span: MEM_RANGE exactly when its last byte lies above 0xFFF. -/
theorem findSome_checkRead (base n : Nat) :
    (addressSpan base n).findSome? checkRead = if n = 0 ∨ base + n ≤ 0x1000 then none else some .memRange := by
  induction n generalizing base with
  | zero => simp [addressSpan]
  | succ n ih =>
    rw [addressSpan_succ, List.findSome?_cons, ih]
    by_cases h : base > 0xFFF
    · simp only [checkRead, h, if_true]; rw [if_neg (by omega)]
    · simp only [checkRead, h, if_false]
      by_cases h2 : base + (n + 1) ≤ 0x1000
      · rw [if_pos (by omega), if_pos (by omega)]
      · rw [if_neg (by omega), if_neg (by omega)]

/-- The write checks of a span of 1 to 16 bytes: MEM_RANGE if its last byte lies above 0xFFF, else FONT_WRITE if its first
lies in the font under `FAULT`; the two never both apply (R65). -/
theorem findSome_checkWrite (c : Config) (base n : Nat) (hn : n ≠ 0) (hs : n ≤ 16) :
    (addressSpan base n).findSome? (checkWrite c) =
      if base + n > 0x1000 then some .memRange
      else if base ≤ 0x04F ∧ c.fontWritePolicy = .fault then some .fontWrite
      else none := by
  induction n generalizing base with
  | zero => exact absurd rfl hn
  | succ n ih =>
    rw [addressSpan_succ, List.findSome?_cons]
    by_cases hr : base > 0xFFF
    · simp only [checkWrite, hr, if_true]; rw [if_pos (by omega)]
    · by_cases hf : base ≤ 0x04F ∧ c.fontWritePolicy = .fault
      · have hb := hf.1
        rw [if_neg (show ¬ base + (n + 1) > 0x1000 by omega), if_pos hf]
        simp [checkWrite, hf, show ¬ 4095 < base by omega]
      · simp only [checkWrite, hr, hf, if_false]
        by_cases h0 : n = 0
        · subst h0; simp [addressSpan]; omega
        · rw [ih (base + 1) h0 (by omega)]
          by_cases h1 : base + (n + 1) > 0x1000
          · rw [if_pos (by omega), if_pos h1]
          · rw [if_neg (by omega), if_neg h1, if_neg (fun h => hf ⟨by omega, h.2⟩)]

theorem checked_none {chk : Nat → Option FaultCause} {as : List Nat} (t : State) (h : as.findSome? chk = none) :
    checked chk as t = .ok t := by simp [checked, h]

theorem checked_some {chk : Nat → Option FaultCause} {as : List Nat} {k : FaultCause} (t : State)
    (h : as.findSome? chk = some k) : checked chk as t = .error k := by simp [checked, h]

/-! ### The end of an instruction -/

@[simp] theorem conclude_ok (i : Instr) (s t : State) : conclude i s (.ok t) = .next t := rfl

@[simp] theorem conclude_error (i : Instr) (s : State) (k : FaultCause) :
    conclude i s (.error k) = .next (s.enterHalt k (encode i)) := rfl

/-- An instruction ends in a next state: its result, or the entry into `HALTED`. -/
theorem conclude_cases {i : Instr} {s t : State} {r : Except FaultCause State} (h : conclude i s r = .next t) :
    r = .ok t ∨ ∃ k, r = .error k ∧ t = s.enterHalt k (encode i) := by
  cases r with
  | ok u => exact .inl (by simpa using h)
  | error k => exact .inr ⟨k, rfl, by simpa using h.symm⟩

theorem conclude_answers (i : Instr) (s : State) (r : Except FaultCause State) : ∃ t, conclude i s r = .next t := by
  cases r <;> exact ⟨_, rfl⟩

theorem skipIf_eq (b : Bool) (s : State) : State.skipIf b s = s.setPc (if b then s.pc + 4 else s.pc + 2) := by
  cases b <;> rfl

/-! ### The registers FX55 and FX65 name -/

theorem regsUpTo_length (x : Reg) : (regsUpTo x).length = x.val + 1 := by simp [regsUpTo]

theorem mem_regsUpTo {x r : Reg} : r ∈ regsUpTo x ↔ r.val ≤ x.val := by
  simp only [regsUpTo, List.mem_map, List.mem_range]
  constructor
  · rintro ⟨k, hk, rfl⟩
    have : k % 16 ≤ k := Nat.mod_le k 16
    simp only [Fin.ofNat]; omega
  · exact fun h => ⟨r.val, by omega, Fin.ext (by simp [Fin.ofNat, Nat.mod_eq_of_lt r.isLt])⟩

theorem regsUpTo_getElem (x : Reg) (k : Nat) (h : k < (regsUpTo x).length) :
    (regsUpTo x)[k].val = k := by
  have hk : k < x.val + 1 := by simpa [regsUpTo_length] using h
  have := x.isLt
  simp only [regsUpTo, List.getElem_map, List.getElem_range, Fin.ofNat]
  exact Nat.mod_eq_of_lt (by omega)

/-- Loading several registers from memory: each listed register holds its byte, every other register is as before. -/
theorem getV_loadFold (f : Reg → Byte) (rs : List Reg) (s : State) (q : Reg) :
    (rs.foldl (fun t r => State.setV r (f r) t) s).getV q = if q ∈ rs then f q else s.getV q := by
  induction rs generalizing s with
  | nil => simp
  | cons r rest ih =>
    rw [List.foldl_cons, ih]
    by_cases hq : q ∈ rest
    · simp [hq]
    · by_cases hr : q = r
      · subst hr; simp [hq]
      · simp [hq, hr, State.getV_setV_other (f r) s hr]

/-- Loading registers changes nothing but registers. -/
theorem loadFold_frame (f : Reg → Byte) (rs : List Reg) (s : State) :
    ∃ v, rs.foldl (fun t r => State.setV r (f r) t) s = { s with v := v } := by
  induction rs generalizing s with
  | nil => exact ⟨s.v, rfl⟩
  | cons r rest ih =>
    obtain ⟨v, h⟩ := ih (State.setV r (f r) s)
    exact ⟨v, by rw [List.foldl_cons, h]; rfl⟩

end Sys2Proof.Machine
end

