-- ==== Sys2Proof/Laws/Display.lean ====
section
/-! SUPPORT. The framebuffer: a pixel read after a pixel write, and what one pixel of a blit does. -/

namespace Sys2Proof.Machine

theorem FrameBuffer.pixel_mod (fb : FrameBuffer) (r c : Nat) : fb.pixel (r % 32) (c % 64) = fb.pixel r c := by
  simp [FrameBuffer.pixel]

/-- A pixel read after a write: the written pixel holds the new value, every other is as before; coordinates are taken
modulo 32 and 64. -/
theorem FrameBuffer.pixel_setPixel (fb : FrameBuffer) (r c r' c' : Nat) (b : Bool) :
    (fb.setPixel r c b).pixel r' c' = if r % 32 = r' % 32 ∧ c % 64 = c' % 64 then b else fb.pixel r' c' := by
  simp only [FrameBuffer.pixel, FrameBuffer.setPixel, Vector.getElem_set]
  by_cases hr : r % 32 = r' % 32
  · simp only [hr, if_true, true_and, Vector.getElem_set]
  · simp [hr]

@[simp] theorem FrameBuffer.pixel_blank (r c : Nat) : FrameBuffer.blank.pixel r c = false := by
  simp [FrameBuffer.pixel, FrameBuffer.blank]

/-- Two buffers with the same pixels are equal. -/
theorem FrameBuffer.ext_pixel {fb gb : FrameBuffer} (h : ∀ r < 32, ∀ c < 64, fb.pixel r c = gb.pixel r c) : fb = gb := by
  apply Vector.ext
  intro r hr
  apply Vector.ext
  intro c hc
  have := h r hr c hc
  simpa [FrameBuffer.pixel, Nat.mod_eq_of_lt hr, Nat.mod_eq_of_lt hc] using this

/-- One pixel of the blit: the named pixel is inverted if the sprite bit is 1, every other is as before. -/
theorem pixel_blitPixel (r c : Nat) (bit : Bool) (acc : FrameBuffer × Bool) (r' c' : Nat) :
    (blitPixel r c bit acc).1.pixel r' c' =
      (acc.1.pixel r' c' ^^ (bit && decide (r % 32 = r' % 32 ∧ c % 64 = c' % 64))) := by
  cases bit with
  | false => simp [blitPixel]
  | true =>
    simp only [blitPixel, if_true, FrameBuffer.pixel_setPixel, Bool.true_and]
    by_cases h : r % 32 = r' % 32 ∧ c % 64 = c' % 64
    · have : acc.1.pixel r c = acc.1.pixel r' c' := by
        rw [← FrameBuffer.pixel_mod acc.1 r c, h.1, h.2, FrameBuffer.pixel_mod]
      simp [h, this]
    · simp [h]

/-- The collision bit after one pixel: it was set, or the sprite bit is 1 and the pixel was 1. -/
theorem collide_blitPixel (r c : Nat) (bit : Bool) (acc : FrameBuffer × Bool) :
    (blitPixel r c bit acc).2 = (acc.2 || (bit && acc.1.pixel r c)) := by
  cases bit <;> simp [blitPixel]

/-- Two inversions, one after the other, that never fall on the same pixel. -/
theorem iff_not_step {a p q r : Prop} (h : r ↔ p ∨ q) (hd : ¬ (p ∧ q)) : ((a ↔ ¬ p) ↔ ¬ q) ↔ (a ↔ ¬ r) := by
  by_cases a <;> by_cases p <;> by_cases q <;> simp_all

/-- The first m columns of a sprite row: a pixel changes exactly when one of their 1 bits falls on it, and the collision
bit is set exactly when it was set or one of their 1 bits falls on a pixel that was 1. -/
theorem blitRow_prefix (r x0 : Nat) (row : Byte) (m : Nat) (hm : m ≤ 8) (acc : FrameBuffer × Bool) :
    (∀ r' c', ((List.range m).foldl (fun a c => blitPixel r (x0 + c) (spriteBit row c) a) acc).1.pixel r' c' = true ↔
      (acc.1.pixel r' c' = true ↔ ¬ (r % 32 = r' % 32 ∧ ∃ j < m, (x0 + j) % 64 = c' % 64 ∧ spriteBit row j = true))) ∧
    (((List.range m).foldl (fun a c => blitPixel r (x0 + c) (spriteBit row c) a) acc).2 = true ↔
      acc.2 = true ∨ ∃ j < m, spriteBit row j = true ∧ acc.1.pixel r (x0 + j) = true) := by
  induction m with
  | zero => simp
  | succ m ih =>
    obtain ⟨h1, h2⟩ := ih (by omega)
    simp only [List.range_succ, List.foldl_append, List.foldl_cons, List.foldl_nil]
    generalize (List.range m).foldl (fun a c => blitPixel r (x0 + c) (spriteBit row c) a) acc = done at h1 h2
    constructor
    · intro r' c'
      have hx : (blitPixel r (x0 + m) (spriteBit row m) done).1.pixel r' c' = true ↔
          (done.1.pixel r' c' = true ↔ ¬ (spriteBit row m = true ∧ r % 32 = r' % 32 ∧ (x0 + m) % 64 = c' % 64)) := by
        rw [pixel_blitPixel]
        by_cases h : r % 32 = r' % 32 ∧ (x0 + m) % 64 = c' % 64 <;> cases done.1.pixel r' c' <;>
          cases spriteBit row m <;> simp [h]
      rw [hx, h1]
      refine iff_not_step ⟨?_, ?_⟩ ?_
      · rintro ⟨hr, j, hj, hc, hb⟩
        rcases Nat.lt_succ_iff_lt_or_eq.1 hj with hj | rfl
        · exact .inl ⟨hr, j, hj, hc, hb⟩
        · exact .inr ⟨hb, hr, hc⟩
      · rintro (⟨hr, j, hj, h⟩ | ⟨hb, hr, hc⟩)
        · exact ⟨hr, j, by omega, h⟩
        · exact ⟨hr, m, by omega, hc, hb⟩
      · rintro ⟨⟨_, j, hj, h, _⟩, _, _, h'⟩; omega
    · rw [collide_blitPixel, Bool.or_eq_true, h2]
      have hp : done.1.pixel r (x0 + m) = true ↔ acc.1.pixel r (x0 + m) = true := by
        rw [h1]
        have : ¬ (r % 32 = r % 32 ∧ ∃ j < m, (x0 + j) % 64 = (x0 + m) % 64 ∧ spriteBit row j = true) := by
          rintro ⟨-, j, hj, h, -⟩; omega
        exact ⟨fun h => h.2 this, fun h => ⟨fun _ => this, fun _ => h⟩⟩
      rw [Bool.and_eq_true, hp]
      constructor
      · rintro ((h | ⟨j, hj, h⟩) | h)
        · exact .inl h
        · exact .inr ⟨j, by omega, h⟩
        · exact .inr ⟨m, by omega, h⟩
      · rintro (h | ⟨j, hj, h⟩)
        · exact .inl (.inl h)
        · rcases Nat.lt_succ_iff_lt_or_eq.1 hj with hj | rfl
          · exact .inl (.inr ⟨j, hj, h⟩)
          · exact .inr h

/-- What one sprite row does. -/
theorem blitRow_spec (r x0 : Nat) (row : Byte) (acc : FrameBuffer × Bool) :
    (∀ r' c', (blitRow r x0 row acc).1.pixel r' c' = true ↔
      (acc.1.pixel r' c' = true ↔ ¬ (r % 32 = r' % 32 ∧ ∃ j < 8, (x0 + j) % 64 = c' % 64 ∧ spriteBit row j = true))) ∧
    ((blitRow r x0 row acc).2 = true ↔ acc.2 = true ∨ ∃ j < 8, spriteBit row j = true ∧ acc.1.pixel r (x0 + j) = true) :=
  blitRow_prefix r x0 row 8 (Nat.le_refl 8) acc

/-- Several sprite rows from row y0 + k0 downward, at most 32 of them, so that no two fall on one row of the display. -/
theorem blitRows_spec (rows : List Byte) (x0 y0 k0 : Nat) (hk : rows.length ≤ 32) (acc : FrameBuffer × Bool) :
    (∀ r' c', ((rows.zipIdx k0).foldl (fun acc e => blitRow (y0 + e.2) x0 e.1 acc) acc).1.pixel r' c' = true ↔
      (acc.1.pixel r' c' = true ↔ ¬ ∃ k, ∃ h : k < rows.length, (y0 + (k0 + k)) % 32 = r' % 32 ∧
        ∃ j < 8, (x0 + j) % 64 = c' % 64 ∧ spriteBit rows[k] j = true)) ∧
    (((rows.zipIdx k0).foldl (fun acc e => blitRow (y0 + e.2) x0 e.1 acc) acc).2 = true ↔
      acc.2 = true ∨ ∃ k, ∃ h : k < rows.length, ∃ j < 8, spriteBit rows[k] j = true ∧
        acc.1.pixel (y0 + (k0 + k)) (x0 + j) = true) := by
  induction rows generalizing k0 acc with
  | nil => simp
  | cons row rest ih =>
    simp only [List.length_cons] at hk
    simp only [List.zipIdx_cons, List.foldl_cons]
    obtain ⟨h1, h2⟩ := ih (k0 + 1) (by omega) (blitRow (y0 + k0) x0 row acc)
    obtain ⟨g1, g2⟩ := blitRow_spec (y0 + k0) x0 row acc
    have hd : ∀ k, k < rest.length → (y0 + (k0 + 1 + k)) % 32 ≠ (y0 + k0) % 32 := by intro k hk; omega
    constructor
    · intro r' c'
      rw [h1, g1]
      refine iff_not_step ⟨?_, ?_⟩ ?_
      · rintro ⟨k, h, e, hj⟩
        cases k with
        | zero => exact .inl ⟨e, hj⟩
        | succ k => exact .inr ⟨k, by simpa using h, by rw [show k0 + 1 + k = k0 + (k + 1) by omega]; exact e, hj⟩
      · rintro (⟨e, hj⟩ | ⟨k, h, e, hj⟩)
        · exact ⟨0, by simp, e, hj⟩
        · exact ⟨k + 1, by simpa using h, by rw [show k0 + (k + 1) = k0 + 1 + k by omega]; exact e, hj⟩
      · rintro ⟨⟨e, -⟩, k, h, e', -⟩; exact hd k h (by omega)
    · have hp : ∀ k, k < rest.length → ∀ j, (blitRow (y0 + k0) x0 row acc).1.pixel (y0 + (k0 + 1 + k)) (x0 + j) = true ↔
          acc.1.pixel (y0 + (k0 + 1 + k)) (x0 + j) = true := by
        intro k hk j
        rw [g1]
        have := hd k hk
        constructor
        · exact fun h => h.2 (fun h => this h.1.symm)
        · exact fun h => ⟨fun _ h => this h.1.symm, fun _ => h⟩
      rw [h2, g2]
      constructor
      · rintro ((h | ⟨j, hj, h⟩) | ⟨k, hk, j, hj, h, h'⟩)
        · exact .inl h
        · exact .inr ⟨0, by simp, j, hj, h⟩
        · rw [hp k hk] at h'
          exact .inr ⟨k + 1, by simpa using hk, j, hj, h, by rw [show k0 + (k + 1) = k0 + 1 + k by omega]; exact h'⟩
      · rintro (h | ⟨k, hk, j, hj, h, h'⟩)
        · exact .inl (.inl h)
        · cases k with
          | zero => exact .inl (.inr ⟨j, hj, h, h'⟩)
          | succ k =>
            have hk' : k < rest.length := by simpa using hk
            exact .inr ⟨k, hk', j, hj, h, by
              rw [hp k hk', show k0 + 1 + k = k0 + (k + 1) by omega]; exact h'⟩

/-- The whole blit: a pixel changes exactly when a 1 bit of the sprite falls on it, and the collision bit is set exactly
when a 1 bit falls on a pixel that was 1. -/
theorem blit_spec (rows : List Byte) (x0 y0 : Nat) (fb : FrameBuffer) (hk : rows.length ≤ 32) :
    (∀ r' c', (blit rows x0 y0 fb).1.pixel r' c' = true ↔
      (fb.pixel r' c' = true ↔ ¬ ∃ k, ∃ h : k < rows.length, (y0 + k) % 32 = r' % 32 ∧
        ∃ j < 8, (x0 + j) % 64 = c' % 64 ∧ spriteBit rows[k] j = true)) ∧
    ((blit rows x0 y0 fb).2 = true ↔ ∃ k, ∃ h : k < rows.length, ∃ j < 8, spriteBit rows[k] j = true ∧
      fb.pixel (y0 + k) (x0 + j) = true) := by
  have := blitRows_spec rows x0 y0 0 hk (fb, false)
  simpa [blit] using this

theorem spriteRows_length (c : Config) (n : Nat) (s : State) : (spriteRows c n s).length = n := by
  simp [spriteRows, addressSpan]

theorem spriteRows_getElem (c : Config) (n : Nat) (s : State) (k : Nat) (h : k < (spriteRows c n s).length) :
    (spriteRows c n s)[k] = s.readMem c (memBase s + k) := by
  simp [spriteRows, addressSpan]

end Sys2Proof.Machine
end

