-- ==== Sys2Proof/Laws/Engine.lean ====
section
/-! SUPPORT. What a step can do, said once: fetching the big-endian word at pc, the one event a step applies, and what
every instruction leaves alone. -/

namespace Sys2Proof.Machine

/-- The word of two bytes, in the form of R67. -/
theorem wordOfBytes_eq (hi lo : Byte) : wordOfBytes hi lo = (zextByte hi <<< 8) ||| zextByte lo := by
  apply BitVec.eq_of_getLsbD_eq
  intro k hk
  have h2 : (hi ++ lo).getLsbD k = if k < 8 then lo.getLsbD k else hi.getLsbD (k - 8) := BitVec.getLsbD_append
  rw [show (wordOfBytes hi lo).getLsbD k = (hi ++ lo).getLsbD k from rfl, h2]
  simp only [zextByte, BitVec.getLsbD_or, BitVec.getLsbD_shiftLeft, BitVec.getLsbD_setWidth]
  by_cases h : k < 8
  · simp [h, hk]
  · have h1 : lo.getLsbD k = false := BitVec.getLsbD_of_ge _ _ (by omega)
    simp [h, hk, h1, show k - 8 < 16 by omega]

theorem fetch_none {c : Config} {s : State} (h : s.pc.toNat + 1 > 0xFFF) : fetch c s = none := by
  simp only [fetch, h, if_true]

theorem fetch_some {c : Config} {s : State} (h : s.pc.toNat + 1 ≤ 0xFFF) : fetch c s = some (wordAtPc c s) := by
  rw [fetch, if_neg (by omega), wordOfBytes_eq]; rfl

/-- A STEP in `RUNNING` at a pc from which a word can be fetched. -/
theorem advance_running {c : Config} {ex : Instr → State → Outcome} {s : State} (he : nextEvent s = .step)
    (hm : s.mode = .running) (hp : s.pc.toNat + 1 ≤ 0xFFF) :
    advance c ex s =
      match decodeWord (wordAtPc c s) with
      | .ok i => ex i s.beginEvent
      | .error _ => unknownOpcode c (wordAtPc c s) s.beginEvent := by
  have hf : fetch c s.beginEvent = some (wordAtPc c s) := fetch_some (s := s.beginEvent) hp
  simp only [advance, he, applyEvent, stepEvent, State.beginEvent_mode, hm, stepRunning, hf] <;> rfl

/-- A STEP in `RUNNING` at a pc from which no word can be fetched. -/
theorem advance_fetchRange {c : Config} {ex : Instr → State → Outcome} {s : State} (he : nextEvent s = .step)
    (hm : s.mode = .running) (hp : s.pc.toNat + 1 > 0xFFF) :
    advance c ex s = .next (s.beginEvent.enterHalt .fetchRange 0) := by
  have hf : fetch c s.beginEvent = none := fetch_none (s := s.beginEvent) hp
  simp only [advance, he, applyEvent, stepEvent, State.beginEvent_mode, hm, stepRunning, hf]

/-- A STEP outside `RUNNING`. -/
theorem advance_notRunning {c : Config} {ex : Instr → State → Outcome} {s : State} (he : nextEvent s = .step)
    (hm : s.mode ≠ .running) : advance c ex s = .next s.beginEvent := by
  cases h : s.mode with
  | running => exact absurd h hm
  | awaitKey => simp only [advance, he, applyEvent, stepEvent, State.beginEvent_mode, h]
  | halted => simp only [advance, he, applyEvent, stepEvent, State.beginEvent_mode, h]

/-- Everything one event can do. -/
theorem advance_cases {c : Config} {ex : Instr → State → Outcome} {s t : State} (h : advance c ex s = .next t) :
    (nextEvent s = .step ∧ s.mode ≠ .running ∧ t = s.beginEvent) ∨
    (nextEvent s = .step ∧ s.mode = .running ∧ s.pc.toNat + 1 > 0xFFF ∧ t = s.beginEvent.enterHalt .fetchRange 0) ∨
    (nextEvent s = .step ∧ s.mode = .running ∧ s.pc.toNat + 1 ≤ 0xFFF ∧
      ((∃ i, decodeWord (wordAtPc c s) = .ok i ∧ ex i s.beginEvent = .next t) ∨
       (∃ why, decodeWord (wordAtPc c s) = .error why ∧ unknownOpcode c (wordAtPc c s) s.beginEvent = .next t))) ∨
    (nextEvent s = .timerTick ∧ t = timerTick s.beginEvent) ∨
    (∃ k, nextEvent s = .keyDown k ∧ t = keyDown k s.beginEvent) ∨
    (∃ k, nextEvent s = .keyUp k ∧ t = keyUp k s.beginEvent) ∨
    (nextEvent s = .reset ∧ t = resetEvent s.beginEvent) ∨
    (∃ b, nextEvent s = .load b ∧ t = loadEvent c b s.beginEvent) := by
  cases he : nextEvent s with
  | step =>
    by_cases hm : s.mode = .running
    · by_cases hp : s.pc.toNat + 1 > 0xFFF
      · rw [advance_fetchRange he hm hp] at h
        injection h with h
        exact .inr (.inl ⟨rfl, hm, hp, h.symm⟩)
      · rw [advance_running he hm (by omega)] at h
        refine .inr (.inr (.inl ⟨rfl, hm, by omega, ?_⟩))
        cases hd : decodeWord (wordAtPc c s) with
        | ok i => rw [hd] at h; exact .inl ⟨i, rfl, h⟩
        | error why => rw [hd] at h; exact .inr ⟨why, rfl, h⟩
    · rw [advance_notRunning he hm] at h
      injection h with h
      exact .inl ⟨rfl, hm, h.symm⟩
  | timerTick => simp_all [advance, applyEvent]
  | keyDown k => simp_all [advance, applyEvent]
  | keyUp k => simp_all [advance, applyEvent]
  | reset => simp_all [advance, applyEvent]
  | load b => simp_all [advance, applyEvent]

/-! ### The instructions that can raise: what each answers, case by case -/

theorem execRet_ok (s : State) (h : s.sp.val ≠ 0) :
    execRet s = .next (State.setPc (s.stack[s.sp.val - 1]'(by have := s.sp.isLt; omega))
      { s with sp := ⟨s.sp.val - 1, by have := s.sp.isLt; omega⟩ }) := by
  rw [execRet, pop_ok s h]; rfl

theorem execRet_empty (s : State) (h : s.sp.val = 0) :
    execRet s = .next (s.enterHalt .stackUnderflow (encode .ret)) := by
  rw [execRet, pop_empty s h]; rfl

theorem execCall_ok (nnn : BitVec 12) (s : State) (h : s.sp.val < 16) :
    execCall nnn s = .next (State.setPc (zextAddr nnn)
      { s with stack := s.stack.set s.sp.val (s.pc + 2) h, sp := ⟨s.sp.val + 1, by omega⟩ }) := by
  rw [execCall, push_ok _ s h]; rfl

theorem execCall_full (nnn : BitVec 12) (s : State) (h : s.sp.val = 16) :
    execCall nnn s = .next (s.enterHalt .stackOverflow (encode (.call nnn))) := by
  rw [execCall, push_full _ s h]; rfl

theorem drw_ok (c : Config) (x y : Reg) (n : Nat) (s : State) (h : n = 0 ∨ s.i.toNat + n ≤ 0x1000) :
    drw c x y n s = .next (drawSprite c x y n s) := by
  change n = 0 ∨ memBase s + n ≤ 0x1000 at h
  rw [drw, checked_none _ (by rw [findSome_checkRead, if_pos h]), conclude_ok]

theorem drw_range (c : Config) (x y : Reg) (n : Nat) (s : State) (h0 : n ≠ 0) (h : s.i.toNat + n > 0x1000) :
    drw c x y n s = .next (s.enterHalt .memRange (encode (.drw x y n))) := by
  change memBase s + n > 0x1000 at h
  rw [drw, checked_some _ (by rw [findSome_checkRead, if_neg (by omega)]), conclude_error]

theorem storeDecimal_ok (c : Config) (x : Reg) (s : State) (h : s.i.toNat + 3 ≤ 0x1000)
    (hf : ¬ (s.i.toNat ≤ 0x04F ∧ c.fontWritePolicy = .fault)) :
    storeDecimal c x s = .next (s.writeBytes c (memBase s) (decimalDigits (s.getV x))).toNext := by
  change memBase s + 3 ≤ 0x1000 at h
  change ¬ (memBase s ≤ 0x04F ∧ c.fontWritePolicy = .fault) at hf
  rw [storeDecimal, checked_none _ (by
    rw [findSome_checkWrite c _ _ (by omega) (by omega), if_neg (by omega), if_neg hf]), conclude_ok]

theorem storeDecimal_range (c : Config) (x : Reg) (s : State) (h : s.i.toNat + 3 > 0x1000) :
    storeDecimal c x s = .next (s.enterHalt .memRange (encode (.ldBX x))) := by
  change memBase s + 3 > 0x1000 at h
  rw [storeDecimal, checked_some _ (by rw [findSome_checkWrite c _ _ (by omega) (by omega), if_pos h]), conclude_error]

theorem storeDecimal_font (c : Config) (x : Reg) (s : State) (h : s.i.toNat ≤ 0x04F) (hf : c.fontWritePolicy = .fault) :
    storeDecimal c x s = .next (s.enterHalt .fontWrite (encode (.ldBX x))) := by
  change memBase s ≤ 0x04F at h
  rw [storeDecimal, checked_some _ (by
    rw [findSome_checkWrite c _ _ (by omega) (by omega), if_neg (by omega), if_pos ⟨h, hf⟩]),
    conclude_error]

theorem storeRegs_ok (c : Config) (x : Reg) (s : State) (h : s.i.toNat + (x.val + 1) ≤ 0x1000)
    (hf : ¬ (s.i.toNat ≤ 0x04F ∧ c.fontWritePolicy = .fault)) :
    storeRegs c x s = .next ((s.writeBytes c (memBase s) ((regsUpTo x).map s.getV)).advanceI x).toNext := by
  change memBase s + (x.val + 1) ≤ 0x1000 at h
  change ¬ (memBase s ≤ 0x04F ∧ c.fontWritePolicy = .fault) at hf
  rw [storeRegs, checked_none _ (by
    rw [findSome_checkWrite c _ _ (by omega) (by omega), if_neg (by omega), if_neg hf]), conclude_ok]

theorem storeRegs_range (c : Config) (x : Reg) (s : State) (h : s.i.toNat + (x.val + 1) > 0x1000) :
    storeRegs c x s = .next (s.enterHalt .memRange (encode (.ldMemX x))) := by
  change memBase s + (x.val + 1) > 0x1000 at h
  rw [storeRegs, checked_some _ (by rw [findSome_checkWrite c _ _ (by omega) (by omega), if_pos h]), conclude_error]

theorem storeRegs_font (c : Config) (x : Reg) (s : State) (h : s.i.toNat ≤ 0x04F) (hf : c.fontWritePolicy = .fault) :
    storeRegs c x s = .next (s.enterHalt .fontWrite (encode (.ldMemX x))) := by
  change memBase s ≤ 0x04F at h
  have := x.isLt
  rw [storeRegs, checked_some _ (by
    rw [findSome_checkWrite c _ _ (by omega) (by omega), if_neg (by omega), if_pos ⟨h, hf⟩]),
    conclude_error]

theorem loadRegs_ok (c : Config) (x : Reg) (s : State) (h : s.i.toNat + (x.val + 1) ≤ 0x1000) :
    loadRegs c x s =
      .next (((regsUpTo x).foldl (fun t r => State.setV r (s.readMem c (memBase s + r.val)) t) s).advanceI x).toNext := by
  change memBase s + (x.val + 1) ≤ 0x1000 at h
  rw [loadRegs, checked_none _ (by rw [findSome_checkRead, if_pos (.inr h)]), conclude_ok]

theorem loadRegs_range (c : Config) (x : Reg) (s : State) (h : s.i.toNat + (x.val + 1) > 0x1000) :
    loadRegs c x s = .next (s.enterHalt .memRange (encode (.ldXMem x))) := by
  change memBase s + (x.val + 1) > 0x1000 at h
  rw [loadRegs, checked_some _ (by rw [findSome_checkRead, if_neg (by omega)]), conclude_error]

/-- What an instruction can be at its end: halted from the state it found, with a cause of its own; or complete, with the
parts that no instruction writes as they were, `MODE` too unless it is FX0A. -/
theorem execWith_cases {c : Config} {i : Instr} {s t : State} (h : execWith c i s = .next t) :
    (∃ k ∈ [FaultCause.memRange, .stackOverflow, .stackUnderflow, .fontWrite], t = s.enterHalt k (encode i)) ∨
    (t.fault = s.fault ∧ t.keys = s.keys ∧ t.loadResult = s.loadResult ∧ t.schedule = s.schedule ∧
      ((t.mode = s.mode ∧ t.awaitTarget = s.awaitTarget ∧ ∀ x, i ≠ .ldXK x) ∨
        ∃ x, i = .ldXK x ∧ t.mode = .awaitKey ∧ t.awaitTarget = x)) := by
  cases i with
  | ret =>
    rw [execWith] at h
    by_cases h0 : s.sp.val = 0
    · rw [execRet_empty s h0] at h; injection h with h; exact .inl ⟨_, by simp, h.symm⟩
    · rw [execRet_ok s h0] at h; injection h with h; subst h; exact .inr (by simp)
  | call nnn =>
    rw [execWith] at h
    by_cases h0 : s.sp.val < 16
    · rw [execCall_ok nnn s h0] at h; injection h with h; subst h; exact .inr (by simp)
    · rw [execCall_full nnn s (by omega)] at h; injection h with h; exact .inl ⟨_, by simp, h.symm⟩
  | drw x y n =>
    rw [execWith] at h
    by_cases h0 : n = 0 ∨ s.i.toNat + n ≤ 0x1000
    · rw [drw_ok c x y n s h0] at h; injection h with h; subst h; exact .inr (by simp [drawSprite])
    · rw [drw_range c x y n s (by omega) (by omega)] at h; injection h with h; exact .inl ⟨_, by simp, h.symm⟩
  | ldBX x =>
    rw [execWith] at h
    by_cases h0 : s.i.toNat + 3 > 0x1000
    · rw [storeDecimal_range c x s h0] at h; injection h with h; exact .inl ⟨_, by simp, h.symm⟩
    · by_cases h1 : s.i.toNat ≤ 0x04F ∧ c.fontWritePolicy = .fault
      · rw [storeDecimal_font c x s h1.1 h1.2] at h; injection h with h; exact .inl ⟨_, by simp, h.symm⟩
      · rw [storeDecimal_ok c x s (by omega) h1] at h; injection h with h; subst h; exact .inr (by simp)
  | ldMemX x =>
    rw [execWith] at h
    by_cases h0 : s.i.toNat + (x.val + 1) > 0x1000
    · rw [storeRegs_range c x s h0] at h; injection h with h; exact .inl ⟨_, by simp, h.symm⟩
    · by_cases h1 : s.i.toNat ≤ 0x04F ∧ c.fontWritePolicy = .fault
      · rw [storeRegs_font c x s h1.1 h1.2] at h; injection h with h; exact .inl ⟨_, by simp, h.symm⟩
      · rw [storeRegs_ok c x s (by omega) h1] at h; injection h with h; subst h; exact .inr (by simp)
  | ldXMem x =>
    rw [execWith] at h
    by_cases h0 : s.i.toNat + (x.val + 1) > 0x1000
    · rw [loadRegs_range c x s h0] at h; injection h with h; exact .inl ⟨_, by simp, h.symm⟩
    · rw [loadRegs_ok c x s (by omega)] at h
      obtain ⟨v, hv⟩ := loadFold_frame (fun r => s.readMem c (memBase s + r.val)) (regsUpTo x) s
      rw [hv] at h
      injection h with h; subst h; exact .inr (by simp)
  | ldXK x => injection h with h; subst h; exact .inr ⟨rfl, rfl, rfl, rfl, .inr ⟨x, rfl, rfl, rfl⟩⟩
  | _ => injection h with h; subst h; exact .inr (by simp [drawRandom])

/-- What an instruction does to memory: nothing, or bytes written from I upward, inside the address space and outside a
font that `FONT_WRITE_POLICY` = `FAULT` protects. -/
theorem execWith_mem {c : Config} {i : Instr} {s t : State} (h : execWith c i s = .next t) :
    t.mem = s.mem ∨
    ∃ ws : List Byte, t.mem = (State.writeBytes c s.i.toNat ws s).mem ∧ s.i.toNat + ws.length ≤ 0x1000 ∧
      ¬ (s.i.toNat ≤ 0x04F ∧ c.fontWritePolicy = .fault) := by
  cases i with
  | ret =>
    rw [execWith] at h
    by_cases h0 : s.sp.val = 0
    · rw [execRet_empty s h0] at h; injection h with h; subst h; exact .inl rfl
    · rw [execRet_ok s h0] at h; injection h with h; subst h; exact .inl rfl
  | call nnn =>
    rw [execWith] at h
    by_cases h0 : s.sp.val < 16
    · rw [execCall_ok nnn s h0] at h; injection h with h; subst h; exact .inl rfl
    · rw [execCall_full nnn s (by omega)] at h; injection h with h; subst h; exact .inl rfl
  | drw x y n =>
    rw [execWith] at h
    by_cases h0 : n = 0 ∨ s.i.toNat + n ≤ 0x1000
    · rw [drw_ok c x y n s h0] at h; injection h with h; subst h; exact .inl rfl
    · rw [drw_range c x y n s (by omega) (by omega)] at h; injection h with h; subst h; exact .inl rfl
  | ldBX x =>
    rw [execWith] at h
    by_cases h0 : s.i.toNat + 3 > 0x1000
    · rw [storeDecimal_range c x s h0] at h; injection h with h; subst h; exact .inl rfl
    · by_cases h1 : s.i.toNat ≤ 0x04F ∧ c.fontWritePolicy = .fault
      · rw [storeDecimal_font c x s h1.1 h1.2] at h; injection h with h; subst h; exact .inl rfl
      · rw [storeDecimal_ok c x s (by omega) h1] at h; injection h with h; subst h; exact .inr ⟨_, rfl, by simp only [decimalDigits, List.length_cons, List.length_nil]; omega, h1⟩
  | ldMemX x =>
    rw [execWith] at h
    by_cases h0 : s.i.toNat + (x.val + 1) > 0x1000
    · rw [storeRegs_range c x s h0] at h; injection h with h; subst h; exact .inl rfl
    · by_cases h1 : s.i.toNat ≤ 0x04F ∧ c.fontWritePolicy = .fault
      · rw [storeRegs_font c x s h1.1 h1.2] at h; injection h with h; subst h; exact .inl rfl
      · rw [storeRegs_ok c x s (by omega) h1] at h; injection h with h; subst h; exact .inr ⟨_, rfl, by simp only [List.length_map, regsUpTo_length]; omega, h1⟩
  | ldXMem x =>
    rw [execWith] at h
    by_cases h0 : s.i.toNat + (x.val + 1) > 0x1000
    · rw [loadRegs_range c x s h0] at h; injection h with h; subst h; exact .inl rfl
    · rw [loadRegs_ok c x s (by omega)] at h
      obtain ⟨v, hv⟩ := loadFold_frame (fun r => s.readMem c (memBase s + r.val)) (regsUpTo x) s
      rw [hv] at h
      injection h with h; subst h; exact .inl rfl
  | _ => injection h with h; subst h; exact .inl (by simp [drawRandom])

/-- Only 00E0 and DXYN write the display or pulse `fb_changed` (R164, R165). -/
theorem execWith_display {c : Config} {i : Instr} {s t : State} (h : execWith c i s = .next t) (hc : i ≠ .cls)
    (hd : ∀ x y n, i ≠ .drw x y n) : t.fb = s.fb ∧ t.fbChanged = s.fbChanged := by
  cases i with
  | cls => exact absurd rfl hc
  | ret =>
    rw [execWith] at h
    by_cases h0 : s.sp.val = 0
    · rw [execRet_empty s h0] at h; injection h with h; subst h; exact ⟨rfl, rfl⟩
    · rw [execRet_ok s h0] at h; injection h with h; subst h; exact ⟨rfl, rfl⟩
  | call nnn =>
    rw [execWith] at h
    by_cases h0 : s.sp.val < 16
    · rw [execCall_ok nnn s h0] at h; injection h with h; subst h; exact ⟨rfl, rfl⟩
    · rw [execCall_full nnn s (by omega)] at h; injection h with h; subst h; exact ⟨rfl, rfl⟩
  | drw x y n =>
    rw [execWith] at h
    by_cases h0 : n = 0 ∨ s.i.toNat + n ≤ 0x1000
    · rw [drw_ok c x y n s h0] at h; injection h with h; subst h; exact absurd rfl (hd x y n)
    · rw [drw_range c x y n s (by omega) (by omega)] at h; injection h with h; subst h; exact ⟨rfl, rfl⟩
  | ldBX x =>
    rw [execWith] at h
    by_cases h0 : s.i.toNat + 3 > 0x1000
    · rw [storeDecimal_range c x s h0] at h; injection h with h; subst h; exact ⟨rfl, rfl⟩
    · by_cases h1 : s.i.toNat ≤ 0x04F ∧ c.fontWritePolicy = .fault
      · rw [storeDecimal_font c x s h1.1 h1.2] at h; injection h with h; subst h; exact ⟨rfl, rfl⟩
      · rw [storeDecimal_ok c x s (by omega) h1] at h; injection h with h; subst h; exact ⟨rfl, rfl⟩
  | ldMemX x =>
    rw [execWith] at h
    by_cases h0 : s.i.toNat + (x.val + 1) > 0x1000
    · rw [storeRegs_range c x s h0] at h; injection h with h; subst h; exact ⟨rfl, rfl⟩
    · by_cases h1 : s.i.toNat ≤ 0x04F ∧ c.fontWritePolicy = .fault
      · rw [storeRegs_font c x s h1.1 h1.2] at h; injection h with h; subst h; exact ⟨rfl, rfl⟩
      · rw [storeRegs_ok c x s (by omega) h1] at h; injection h with h; subst h; exact ⟨rfl, rfl⟩
  | ldXMem x =>
    rw [execWith] at h
    by_cases h0 : s.i.toNat + (x.val + 1) > 0x1000
    · rw [loadRegs_range c x s h0] at h; injection h with h; subst h; exact ⟨rfl, rfl⟩
    · rw [loadRegs_ok c x s (by omega)] at h
      obtain ⟨v, hv⟩ := loadFold_frame (fun r => s.readMem c (memBase s + r.val)) (regsUpTo x) s
      rw [hv] at h
      injection h with h; subst h; exact ⟨rfl, rfl⟩
  | _ => injection h with h; subst h; simp [drawRandom]

/-- A conditional skip moves on by one word or by two. -/
theorem skipIf_pc_or (b : Bool) (s : State) : (s.skipIf b).pc = s.pc + 2 ∨ (s.skipIf b).pc = s.pc + 4 := by
  cases b
  · exact .inl rfl
  · exact .inr rfl

/-- What an instruction does to the pc and the call stack: a jump, a call, a return, or a fall through or skip or halt
that leaves the stack alone. -/
theorem execWith_control {c : Config} {i : Instr} {s t : State} (h : execWith c i s = .next t) :
    (t.stack = s.stack ∧ t.sp = s.sp ∧ (t.pc = s.pc ∨ t.pc = s.pc + 2 ∨ t.pc = s.pc + 4)) ∨
    (t.stack = s.stack ∧ t.sp = s.sp ∧ ∃ nnn : BitVec 12, t.pc = zextAddr nnn ∨ t.pc = jumpV0Target nnn s) ∨
    (∃ (nnn : BitVec 12) (hs : s.sp.val < 16), t.stack = s.stack.set s.sp.val (s.pc + 2) hs ∧
      t.sp.val = s.sp.val + 1 ∧ t.pc = zextAddr nnn) ∨
    (∃ _ : s.sp.val ≠ 0, t.stack = s.stack ∧ t.sp.val = s.sp.val - 1 ∧
      t.pc = s.stack[s.sp.val - 1]'(by have := s.sp.isLt; omega)) := by
  cases i with
  | ret =>
    rw [execWith] at h
    by_cases h0 : s.sp.val = 0
    · rw [execRet_empty s h0] at h; injection h with h; subst h; exact .inl (by simp)
    · rw [execRet_ok s h0] at h; injection h with h; subst h; exact .inr (.inr (.inr ⟨h0, rfl, rfl, rfl⟩))
  | call nnn =>
    rw [execWith] at h
    by_cases h0 : s.sp.val < 16
    · rw [execCall_ok nnn s h0] at h; injection h with h; subst h; exact .inr (.inr (.inl ⟨nnn, h0, rfl, rfl, rfl⟩))
    · rw [execCall_full nnn s (by omega)] at h; injection h with h; subst h; exact .inl (by simp)
  | drw x y n =>
    rw [execWith] at h
    by_cases h0 : n = 0 ∨ s.i.toNat + n ≤ 0x1000
    · rw [drw_ok c x y n s h0] at h; injection h with h; subst h; exact .inl ⟨rfl, rfl, .inr (.inl rfl)⟩
    · rw [drw_range c x y n s (by omega) (by omega)] at h; injection h with h; subst h; exact .inl (by simp)
  | ldBX x =>
    rw [execWith] at h
    by_cases h0 : s.i.toNat + 3 > 0x1000
    · rw [storeDecimal_range c x s h0] at h; injection h with h; subst h; exact .inl (by simp)
    · by_cases h1 : s.i.toNat ≤ 0x04F ∧ c.fontWritePolicy = .fault
      · rw [storeDecimal_font c x s h1.1 h1.2] at h; injection h with h; subst h; exact .inl (by simp)
      · rw [storeDecimal_ok c x s (by omega) h1] at h; injection h with h; subst h; exact .inl (by simp)
  | ldMemX x =>
    rw [execWith] at h
    by_cases h0 : s.i.toNat + (x.val + 1) > 0x1000
    · rw [storeRegs_range c x s h0] at h; injection h with h; subst h; exact .inl (by simp)
    · by_cases h1 : s.i.toNat ≤ 0x04F ∧ c.fontWritePolicy = .fault
      · rw [storeRegs_font c x s h1.1 h1.2] at h; injection h with h; subst h; exact .inl (by simp)
      · rw [storeRegs_ok c x s (by omega) h1] at h; injection h with h; subst h; exact .inl (by simp)
  | ldXMem x =>
    rw [execWith] at h
    by_cases h0 : s.i.toNat + (x.val + 1) > 0x1000
    · rw [loadRegs_range c x s h0] at h; injection h with h; subst h; exact .inl (by simp)
    · rw [loadRegs_ok c x s (by omega)] at h
      obtain ⟨v, hv⟩ := loadFold_frame (fun r => s.readMem c (memBase s + r.val)) (regsUpTo x) s
      rw [hv] at h
      injection h with h; subst h; exact .inl (by simp)
  | jp nnn => injection h with h; subst h; exact .inr (.inl ⟨rfl, rfl, nnn, .inl rfl⟩)
  | jpV0 nnn => injection h with h; subst h; exact .inr (.inl ⟨rfl, rfl, nnn, .inr rfl⟩)
  | skp x => injection h with h; subst h; exact .inl ⟨by simp, by simp, .inr (skipIf_pc_or _ _)⟩
  | sknp x => injection h with h; subst h; exact .inl ⟨by simp, by simp, .inr (skipIf_pc_or _ _)⟩
  | seByte x nn => injection h with h; subst h; exact .inl ⟨by simp, by simp, .inr (skipIf_pc_or _ _)⟩
  | sneByte x nn => injection h with h; subst h; exact .inl ⟨by simp, by simp, .inr (skipIf_pc_or _ _)⟩
  | seReg x y => injection h with h; subst h; exact .inl ⟨by simp, by simp, .inr (skipIf_pc_or _ _)⟩
  | sneReg x y => injection h with h; subst h; exact .inl ⟨by simp, by simp, .inr (skipIf_pc_or _ _)⟩
  | _ => injection h with h; subst h; exact .inl ⟨rfl, rfl, .inr (.inl rfl)⟩

/-- Who writes what: the timers, I, the call stack and memory each have the writers that the spec names, and no
instruction writes the held keys (R33, R36, R40, R69, R311). -/
theorem execWith_writers {c : Config} {i : Instr} {s t : State} (h : execWith c i s = .next t) :
    (t.dt ≠ s.dt → ∃ x, i = .ldDtX x) ∧ (t.st ≠ s.st → ∃ x, i = .ldStX x) ∧
    (t.i ≠ s.i → (∃ nnn, i = .ldI nnn) ∨ ∃ x, i = .addIX x ∨ i = .ldFX x ∨ i = .ldMemX x ∨ i = .ldXMem x) ∧
    (t.stack ≠ s.stack → ∃ nnn, i = .call nnn) ∧ (t.sp ≠ s.sp → i = .ret ∨ ∃ nnn, i = .call nnn) ∧
    t.keys = s.keys ∧ (t.mem ≠ s.mem → ∃ x, i = .ldBX x ∨ i = .ldMemX x) := by
  cases i with
  | ret =>
    rw [execWith] at h
    by_cases h0 : s.sp.val = 0
    · rw [execRet_empty s h0] at h; injection h with h; subst h; simp
    · rw [execRet_ok s h0] at h; injection h with h; subst h; simp
  | call nnn =>
    rw [execWith] at h
    by_cases h0 : s.sp.val < 16
    · rw [execCall_ok nnn s h0] at h; injection h with h; subst h; simp
    · rw [execCall_full nnn s (by omega)] at h; injection h with h; subst h; simp
  | drw x y n =>
    rw [execWith] at h
    by_cases h0 : n = 0 ∨ s.i.toNat + n ≤ 0x1000
    · rw [drw_ok c x y n s h0] at h; injection h with h; subst h; simp [drawSprite]
    · rw [drw_range c x y n s (by omega) (by omega)] at h; injection h with h; subst h; simp
  | ldBX x =>
    rcases conclude_cases (i := .ldBX x) h with hh | ⟨k, hh, rfl⟩
    · unfold checked at hh; split at hh
      · simp at hh
      · injection hh with hh; subst hh; simp
    · simp
  | ldMemX x =>
    rcases conclude_cases (i := .ldMemX x) h with hh | ⟨k, hh, rfl⟩
    · unfold checked at hh; split at hh
      · simp at hh
      · injection hh with hh; subst hh; simp
    · simp
  | ldXMem x =>
    rcases conclude_cases (i := .ldXMem x) h with hh | ⟨k, hh, rfl⟩
    · unfold checked at hh; split at hh
      · simp at hh
      · obtain ⟨v, hv⟩ := loadFold_frame (fun r => s.readMem c (memBase s + r.val)) (regsUpTo x) s
        rw [hv] at hh
        injection hh with hh; subst hh; simp
    · simp
  | _ => injection h with h; subst h; simp [drawRandom]

/-! ### Frames, in the terms of the statements -/

/-- Writing pc changes only pc. -/
theorem changesOnlyIn_setPc (c : Config) (s : State) (w : Word) : changesOnlyIn c [.pc] s (s.setPc w) := by
  intro p hp; cases p <;> first | rfl | simp at hp

/-- Writing one register and pc. -/
theorem changesOnlyIn_setV (c : Config) (s : State) (x : Reg) (w : Byte) (q : Word) :
    changesOnlyIn c [.reg x, .pc] s ((s.setV x w).setPc q) := by
  intro p hp
  cases p with
  | reg r => simp at hp; exact State.getV_setV_other w s hp
  | pc => simp at hp
  | _ => rfl

/-- Writing a result, its flag and pc. -/
theorem changesOnlyIn_setVFlag (c : Config) (s : State) (x : Reg) (w f : Byte) (q : Word) :
    changesOnlyIn c [.reg x, .reg vF, .pc] s ((s.setVFlag x w f).setPc q) := by
  intro p hp
  cases p with
  | reg r =>
    simp at hp
    show (State.setVFlag x w f s).getV r = s.getV r
    rw [State.getV_setVFlag, if_neg hp.2, if_neg hp.1]
  | pc => simp at hp
  | _ => rfl

/-- A byte that is none of the parts `bytesFrom base n` lies outside the span. -/
theorem outside_of_not_mem_bytesFrom {a base n : Nat} (h : Part.byte a ∉ bytesFrom base n) : a < base ∨ base + n ≤ a := by
  simp [bytesFrom, mem_addressSpan] at h; omega

/-! ### Runs and halts -/

/-- A run takes its first step and goes on from there. -/
theorem run_succ (n : Nat) {s t : State} (h : step s = .next t) :
    Host.Core.run Sys2Proof.core (n + 1) s = Host.Core.run Sys2Proof.core n t := by
  have h : Sys2Proof.core.step s = .next t := h
  have e := Host.Core.run.eq_2 Sys2Proof.core s n
  rw [h] at e
  exact e

/-- The event at the head of the schedule is the next one. -/
theorem nextEvent_cons {s : State} {e : HostEvent} {rest : List HostEvent} (h : s.schedule = e :: rest) :
    nextEvent s = e := by simp [nextEvent, h]

/-- An entry into `HALTED` with a cause that comes with an opcode, in the terms of the statements. -/
theorem haltedFrom_enterHalt (c : Config) {k : FaultCause} (op : Word) (s : State) (h : k ≠ .fetchRange) :
    haltedFrom c (fatalRecord k op s.pc) s (s.enterHalt k op) := by
  refine ⟨rfl, by simp [fatalRecord, h], fun p hp => ?_⟩
  cases p <;> first | rfl | simp at hp

end Sys2Proof.Machine
end

