-- ==== Sys2Proof/Laws/Fields.lean ====
section
/-! SUPPORT. The fields of R101 read back from a word that one of the formats of R102 built. -/

namespace Sys2Proof

/-- The high part of an appended word. -/
theorem extract_append_high {m n : Nat} (a : BitVec m) (b : BitVec n) : (a ++ b).extractLsb' n m = a := by
  apply BitVec.eq_of_getLsbD_eq
  intro k hk
  rw [BitVec.getLsbD_extractLsb', BitVec.getLsbD_append]
  simp [hk]

/-- A field that lies in the low part of an appended word. -/
theorem extract_append_low {m n : Nat} (a : BitVec m) (b : BitVec n) (start len : Nat) (h : start + len ≤ n) :
    (a ++ b).extractLsb' start len = b.extractLsb' start len := by
  apply BitVec.eq_of_getLsbD_eq
  intro k hk
  rw [BitVec.getLsbD_extractLsb', BitVec.getLsbD_extractLsb', BitVec.getLsbD_append]
  simp [show start + k < n by omega]

/-- The whole of a bit vector, as a field. -/
theorem extract_all {n : Nat} (b : BitVec n) : b.extractLsb' 0 n = b := by
  apply BitVec.eq_of_getLsbD_eq
  intro k hk
  simp [hk]

theorem regNibble_toNat (r : Reg) : (regNibble r).toNat = r.val := by
  simp [regNibble]

@[simp] theorem opFamily_formatA (f : BitVec 4) (nnn : BitVec 12) : opFamily (formatA f nnn) = f.toNat := by
  rw [opFamily, formatA, extract_append_high]

@[simp] theorem opNNN_formatA (f : BitVec 4) (nnn : BitVec 12) : opNNN (formatA f nnn) = nnn := by
  rw [opNNN, formatA, extract_append_low _ _ _ _ (by omega), extract_all]

@[simp] theorem opFamily_formatXB (f : BitVec 4) (x : Reg) (nn : Byte) : opFamily (formatXB f x nn) = f.toNat :=
  opFamily_formatA f _

@[simp] theorem opX_formatXB (f : BitVec 4) (x : Reg) (nn : Byte) : opX (formatXB f x nn) = x := by
  apply Fin.ext
  show ((formatXB f x nn).extractLsb' 8 4).toNat = x.val
  rw [formatXB, extract_append_low _ _ _ _ (by omega), extract_append_high, regNibble_toNat]

@[simp] theorem opNN_formatXB (f : BitVec 4) (x : Reg) (nn : Byte) : opNN (formatXB f x nn) = nn := by
  rw [opNN, formatXB, extract_append_low _ _ _ _ (by omega), extract_append_low _ _ _ _ (by omega), extract_all]

@[simp] theorem opFamily_formatXYN (f : BitVec 4) (x y : Reg) (n : BitVec 4) :
    opFamily (formatXYN f x y n) = f.toNat := opFamily_formatA f _

@[simp] theorem opX_formatXYN (f : BitVec 4) (x y : Reg) (n : BitVec 4) : opX (formatXYN f x y n) = x := by
  apply Fin.ext
  show ((formatXYN f x y n).extractLsb' 8 4).toNat = x.val
  rw [formatXYN, extract_append_low _ _ _ _ (by omega), extract_append_high, regNibble_toNat]

@[simp] theorem opY_formatXYN (f : BitVec 4) (x y : Reg) (n : BitVec 4) : opY (formatXYN f x y n) = y := by
  apply Fin.ext
  show ((formatXYN f x y n).extractLsb' 4 4).toNat = y.val
  rw [formatXYN, extract_append_low _ _ _ _ (by omega), extract_append_low _ _ _ _ (by omega), extract_append_high,
    regNibble_toNat]

@[simp] theorem opN_formatXYN (f : BitVec 4) (x y : Reg) (n : BitVec 4) : opN (formatXYN f x y n) = n.toNat := by
  rw [opN, formatXYN, extract_append_low _ _ _ _ (by omega), extract_append_low _ _ _ _ (by omega),
    extract_append_low _ _ _ _ (by omega), extract_all]

/-- The two bytes of a word, put together again. -/
@[simp] theorem wordOfBytes_split (op : Word) : wordOfBytes (op.extractLsb' 8 8) (op.extractLsb' 0 8) = op := by
  apply BitVec.eq_of_getLsbD_eq
  intro k hk
  show (op.extractLsb' 8 8 ++ op.extractLsb' 0 8).getLsbD k = op.getLsbD k
  rw [BitVec.getLsbD_append, BitVec.getLsbD_extractLsb', BitVec.getLsbD_extractLsb']
  by_cases h : k < 8
  · simp [h]
  · simp [h, show k - 8 < 8 by omega, show 8 + (k - 8) = k by omega]

/-- The word of two bytes, as a number. -/
theorem wordOfBytes_toNat (hi lo : Byte) : (wordOfBytes hi lo).toNat = hi.toNat * 256 + lo.toNat := by
  have h := lo.isLt
  rw [wordOfBytes, BitVec.toNat_append, ← Nat.shiftLeft_add_eq_or_of_lt h, Nat.shiftLeft_eq]

end Sys2Proof
end

