-- ==== Sys2Proof/Laws/PerInstr.lean ====
section
/-! SUPPORT. The family `EncodeMatches`: the word the encoder gives an instruction is selected by that instruction's row
of the table of R104. -/

namespace Sys2Proof.Laws.EncodeMatches

/-- The encoded word has the fixed bits of the instruction's row. -/
def Statement (i : Instr) : Prop := i.row.selects (encode i) = true

/-- A word in format A has its family nibble under the mask 0xF000. -/
theorem formatA_family (f : BitVec 4) (nnn : BitVec 12) : formatA f nnn &&& 0xF000 = f ++ (0 : BitVec 12) := by
  unfold formatA
  apply BitVec.eq_of_getLsbD_eq
  intro k hk
  rw [BitVec.getLsbD_and, BitVec.getLsbD_append, BitVec.getLsbD_append]
  interval_cases k <;> simp

theorem formatXB_family (f : BitVec 4) (x : Reg) (nn : Byte) : formatXB f x nn &&& 0xF000 = f ++ (0 : BitVec 12) :=
  formatA_family f _

/-- A word in format Xff has its family nibble and its low byte under the mask 0xF0FF. -/
theorem formatXB_fixed (f : BitVec 4) (x : Reg) (ff : Byte) :
    formatXB f x ff &&& 0xF0FF = f ++ ((0 : BitVec 4) ++ ff) := by
  unfold formatXB
  apply BitVec.eq_of_getLsbD_eq
  intro k hk
  rw [BitVec.getLsbD_and, BitVec.getLsbD_append, BitVec.getLsbD_append, BitVec.getLsbD_append, BitVec.getLsbD_append]
  interval_cases k <;> simp

theorem formatXYN_family (f : BitVec 4) (x y : Reg) (n : BitVec 4) :
    formatXYN f x y n &&& 0xF000 = f ++ (0 : BitVec 12) :=
  formatA_family f _

/-- A word in format XYf has its family nibble and its function nibble under the mask 0xF00F. -/
theorem formatXYN_fixed (f : BitVec 4) (x y : Reg) (n : BitVec 4) :
    formatXYN f x y n &&& 0xF00F = f ++ ((0 : BitVec 8) ++ n) := by
  unfold formatXYN
  apply BitVec.eq_of_getLsbD_eq
  intro k hk
  rw [BitVec.getLsbD_and, BitVec.getLsbD_append, BitVec.getLsbD_append, BitVec.getLsbD_append, BitVec.getLsbD_append,
    BitVec.getLsbD_append]
  interval_cases k <;> simp

theorem selects_iff (r : OpcodeRow) (op : Word) : r.selects op = true ↔ op &&& r.mask = r.pattern := by
  simp [OpcodeRow.selects]

/-- The family in the terms of the statements. -/
theorem encodedBy_of {i : Instr} {mask pattern : Word} (h : Statement i) (hr : i.row = ⟨mask, pattern⟩) :
    Machine.encodedBy mask pattern i := by
  have := (selects_iff _ _).1 h
  rw [hr] at this
  exact this

theorem cls : Statement .cls := rfl
theorem ret : Statement .ret := rfl
theorem jp (nnn : BitVec 12) : Statement (.jp nnn) := (selects_iff _ _).2 (formatA_family _ _)
theorem call (nnn : BitVec 12) : Statement (.call nnn) := (selects_iff _ _).2 (formatA_family _ _)
theorem seByte (x : Reg) (nn : Byte) : Statement (.seByte x nn) := (selects_iff _ _).2 (formatXB_family _ _ _)
theorem sneByte (x : Reg) (nn : Byte) : Statement (.sneByte x nn) := (selects_iff _ _).2 (formatXB_family _ _ _)
theorem seReg (x y : Reg) : Statement (.seReg x y) := (selects_iff _ _).2 (formatXYN_fixed _ _ _ _)
theorem ldByte (x : Reg) (nn : Byte) : Statement (.ldByte x nn) := (selects_iff _ _).2 (formatXB_family _ _ _)
theorem addByte (x : Reg) (nn : Byte) : Statement (.addByte x nn) := (selects_iff _ _).2 (formatXB_family _ _ _)
theorem ldReg (x y : Reg) : Statement (.ldReg x y) := (selects_iff _ _).2 (formatXYN_fixed _ _ _ _)
theorem orReg (x y : Reg) : Statement (.orReg x y) := (selects_iff _ _).2 (formatXYN_fixed _ _ _ _)
theorem andReg (x y : Reg) : Statement (.andReg x y) := (selects_iff _ _).2 (formatXYN_fixed _ _ _ _)
theorem xorReg (x y : Reg) : Statement (.xorReg x y) := (selects_iff _ _).2 (formatXYN_fixed _ _ _ _)
theorem addReg (x y : Reg) : Statement (.addReg x y) := (selects_iff _ _).2 (formatXYN_fixed _ _ _ _)
theorem sub (x y : Reg) : Statement (.sub x y) := (selects_iff _ _).2 (formatXYN_fixed _ _ _ _)
theorem shr (x y : Reg) : Statement (.shr x y) := (selects_iff _ _).2 (formatXYN_fixed _ _ _ _)
theorem subn (x y : Reg) : Statement (.subn x y) := (selects_iff _ _).2 (formatXYN_fixed _ _ _ _)
theorem shl (x y : Reg) : Statement (.shl x y) := (selects_iff _ _).2 (formatXYN_fixed _ _ _ _)
theorem sneReg (x y : Reg) : Statement (.sneReg x y) := (selects_iff _ _).2 (formatXYN_fixed _ _ _ _)
theorem ldI (nnn : BitVec 12) : Statement (.ldI nnn) := (selects_iff _ _).2 (formatA_family _ _)
theorem jpV0 (nnn : BitVec 12) : Statement (.jpV0 nnn) := (selects_iff _ _).2 (formatA_family _ _)
theorem rnd (x : Reg) (nn : Byte) : Statement (.rnd x nn) := (selects_iff _ _).2 (formatXB_family _ _ _)
theorem drw (x y : Reg) (n : Nat) : Statement (.drw x y n) := (selects_iff _ _).2 (formatXYN_family _ _ _ _)
theorem skp (x : Reg) : Statement (.skp x) := (selects_iff _ _).2 (formatXB_fixed _ _ _)
theorem sknp (x : Reg) : Statement (.sknp x) := (selects_iff _ _).2 (formatXB_fixed _ _ _)
theorem ldXDt (x : Reg) : Statement (.ldXDt x) := (selects_iff _ _).2 (formatXB_fixed _ _ _)
theorem ldXK (x : Reg) : Statement (.ldXK x) := (selects_iff _ _).2 (formatXB_fixed _ _ _)
theorem ldDtX (x : Reg) : Statement (.ldDtX x) := (selects_iff _ _).2 (formatXB_fixed _ _ _)
theorem ldStX (x : Reg) : Statement (.ldStX x) := (selects_iff _ _).2 (formatXB_fixed _ _ _)
theorem addIX (x : Reg) : Statement (.addIX x) := (selects_iff _ _).2 (formatXB_fixed _ _ _)
theorem ldFX (x : Reg) : Statement (.ldFX x) := (selects_iff _ _).2 (formatXB_fixed _ _ _)
theorem ldBX (x : Reg) : Statement (.ldBX x) := (selects_iff _ _).2 (formatXB_fixed _ _ _)
theorem ldMemX (x : Reg) : Statement (.ldMemX x) := (selects_iff _ _).2 (formatXB_fixed _ _ _)
theorem ldXMem (x : Reg) : Statement (.ldXMem x) := (selects_iff _ _).2 (formatXB_fixed _ _ _)

end Sys2Proof.Laws.EncodeMatches
end

