-- ==== Sys2Proof/Tests/Slice0.lean ====
section
/-! SUPPORT. Tests. Expected results are the spec's: the worked examples W1 to W10 and the derived vectors of
95_test_vectors.md, named in each comment; words are written out from the table of R104. Then one witness for the
hypotheses of each statement that has any. -/

namespace Sys2Proof.Tests

open Sys2Proof Sys2Proof.Machine Sys2Proof.Statements

/-! ### Helpers -/

/-- The outcome is a next state with the property. -/
def answers (o : Outcome) (p : State → Bool) : Bool :=
  match o with
  | .next t => p t
  | _ => false

/-- One STEP on the word `op` at pc, from the reset state with some values set, ends in a state with the property. -/
def after (op : Nat) (setup : State → State) (p : State → Bool) : Bool :=
  answers (step ((setup State.reset).withFetchWord 16 op)) p

/-- The same with other values of the parameters. -/
def afterWith (c : Config) (op : Nat) (setup : State → State) (p : State → Bool) : Bool :=
  answers (stepWith c ((setup State.reset).withFetchWord 16 op)) p

/-- One event of the host on a state. -/
def afterEvent (e : HostEvent) (s : State) (p : State → Bool) : Bool :=
  answers (step { s with schedule := [e] }) p

/-- The reset state. -/
def asReset (s : State) : State := s

/-- Two registers set. -/
def regs2 (x : Reg) (a : Byte) (y : Reg) (b : Byte) (s : State) : State := (s.setV x a).setV y b

/-- I set, and bytes from that address upward. -/
def memAt (base : Word) (ws : List Byte) (s : State) : State :=
  (s.writeBytes Config.hardware base.toNat ws).setI base

/-- The stack with `n` entries that all hold one address. -/
def stackOf (n : Fin 17) (a : Word) (s : State) : State := { s with stack := Vector.replicate 16 a, sp := n }

/-- One key held. -/
def held (k : Fin 16) (s : State) : State := { s with keys := s.keys.set k true }

/-- One pixel set. -/
def lit (r c : Nat) (s : State) : State := { s with fb := s.fb.setPixel r c true }

/-- The FX0A wait for a register. -/
def waiting (x : Reg) (s : State) : State := { s with mode := .awaitKey, awaitTarget := x, pc := 0x202 }

/-- A core halted by a stack overflow at 0x200. -/
def halted (s : State) : State := s.enterHalt .stackOverflow 0x2200

/-- This hardware but for the shift operand, the unknown-opcode policy, or the font policy. -/
def shiftVx : Config := { Config.hardware with shiftSource := .vx }
def unknownNop : Config := { Config.hardware with unknownOpcodePolicy := .nop }
def fontAllow : Config := { Config.hardware with fontWritePolicy := .allow }

/-! ### WellFormed -/

theorem test_wf_drw_16_rows_refused : (Instr.drw 0 0 16).wf = false := by decide
theorem test_wf_drw_15_rows_accepted : (Instr.drw 0xF 0xF 15).wf = true := by decide
theorem test_wf_other_forms_accepted : (oneOfEachForm.all Instr.wf) = true := by decide

/-! ### Decode: words written out from the table of R104, fixed digits in their places -/

theorem test_decode_family0 :
    decodeTableWord 16 0b0000000011100000 = some .cls ∧ decodeTableWord 16 0b0000000011101110 = some .ret ∧
    decodeTableWord 16 0x0123 = none ∧ decodeTableWord 16 0x00E1 = none ∧ decodeTableWord 16 0x00FF = none := by decide
theorem test_decode_jumps :
    decodeTableWord 16 0b0001101010111100 = some (.jp 0xABC) ∧ decodeTableWord 16 0x2DEF = some (.call 0xDEF) ∧
    decodeTableWord 16 0xB123 = some (.jpV0 0x123) := by decide
theorem test_decode_skips :
    decodeTableWord 16 0b0011101001011100 = some (.seByte 0xA 0x5C) ∧
    decodeTableWord 16 0x4B7D = some (.sneByte 0xB 0x7D) ∧
    decodeTableWord 16 0b0101101010110000 = some (.seReg 0xA 0xB) ∧
    decodeTableWord 16 0x9CD0 = some (.sneReg 0xC 0xD) ∧
    decodeTableWord 16 0x5AB1 = none ∧ decodeTableWord 16 0x9CD8 = none := by decide
theorem test_decode_immediates :
    decodeTableWord 16 0b0110101000111100 = some (.ldByte 0xA 0x3C) ∧
    decodeTableWord 16 0x7C5E = some (.addByte 0xC 0x5E) ∧ decodeTableWord 16 0xA300 = some (.ldI 0x300) ∧
    decodeTableWord 16 0xC1F0 = some (.rnd 0x1 0xF0) := by decide
theorem test_decode_family8 :
    decodeTableWord 16 0x8AB0 = some (.ldReg 0xA 0xB) ∧ decodeTableWord 16 0x8AB1 = some (.orReg 0xA 0xB) ∧
    decodeTableWord 16 0x8AB2 = some (.andReg 0xA 0xB) ∧ decodeTableWord 16 0x8AB3 = some (.xorReg 0xA 0xB) ∧
    decodeTableWord 16 0b1000101010110100 = some (.addReg 0xA 0xB) ∧ decodeTableWord 16 0x8AB5 = some (.sub 0xA 0xB) ∧
    decodeTableWord 16 0x8AB6 = some (.shr 0xA 0xB) ∧ decodeTableWord 16 0x8AB7 = some (.subn 0xA 0xB) ∧
    decodeTableWord 16 0x8ABE = some (.shl 0xA 0xB) ∧
    decodeTableWord 16 0x8AB8 = none ∧ decodeTableWord 16 0x8ABF = none := by decide
theorem test_decode_draw : decodeTableWord 16 0b1101001101000101 = some (.drw 3 4 5) := by decide
theorem test_decode_keys :
    decodeTableWord 16 0b1110101010011110 = some (.skp 0xA) ∧ decodeTableWord 16 0xEAA1 = some (.sknp 0xA) ∧
    decodeTableWord 16 0xE1A2 = none ∧ decodeTableWord 16 0xE000 = none := by decide
theorem test_decode_familyF :
    decodeTableWord 16 0xFA07 = some (.ldXDt 0xA) ∧ decodeTableWord 16 0xFA0A = some (.ldXK 0xA) ∧
    decodeTableWord 16 0xFA15 = some (.ldDtX 0xA) ∧ decodeTableWord 16 0xFA18 = some (.ldStX 0xA) ∧
    decodeTableWord 16 0xFA1E = some (.addIX 0xA) ∧ decodeTableWord 16 0b1111101000101001 = some (.ldFX 0xA) ∧
    decodeTableWord 16 0xFA33 = some (.ldBX 0xA) ∧ decodeTableWord 16 0xFA55 = some (.ldMemX 0xA) ∧
    decodeTableWord 16 0xFA65 = some (.ldXMem 0xA) ∧
    decodeTableWord 16 0xF000 = none ∧ decodeTableWord 16 0xF1FF = none ∧ decodeTableWord 16 0xFA75 = none := by decide
/-- A byte list gives back its rest; one byte is no instruction (R100). -/
theorem test_decode_rest : decode [0x6A, 0x3C, 0xFA] = .ok (.ldByte 0xA 0x3C, [0xFA]) ∧ decode [0x6A] = .error .truncated ∧
    decode [0xE1, 0xA2] = .error (.unrecognized .familyE 0xE1A2) := by decide
/-- 34 rows (R2), and no word is selected by two of them: where two rows fix a common bit differently. -/
theorem test_table_rows_disjoint : opcodeTable.length = 34 ∧
    opcodeTable.Pairwise (fun r q => r.pattern &&& q.mask ≠ q.pattern &&& r.mask) := by decide

/-! ### Fetch, decode, unknown words and faults (vectors E) -/

/-- E1. -/
theorem test_step_runs_word_at_pc : after 0x602A asReset (fun t => t.getV 0 == 0x2A && t.pc == 0x202) = true := by decide
/-- E2: the last word of memory. -/
theorem test_step_at_ffe :
    after 0x6101 (State.setPc 0xFFE) (fun t => t.getV 1 == 1 && t.pc == 0x1000) = true := by decide
/-- E4. -/
theorem test_fetch_range : answers (step (State.reset.setPc 0xFFF))
    (fun t => t.mode == .halted && t.fault.pc == 0xFFF && t.fault.opcode == 0 && t.status == 0x0042) = true := by decide
/-- E5: an odd pc. -/
theorem test_odd_pc : after 0x6207 (State.setPc 0x301) (fun t => t.getV 2 == 7 && t.pc == 0x303) = true := by decide
/-- E6. -/
theorem test_unknown_faults : after 0x8008 asReset
    (fun t => t.fault.opcode == 0x8008 && t.fault.pc == 0x200 && t.pc == 0x200 && t.status == 0x0342) = true := by decide
/-- E8. -/
theorem test_unknown_nop : afterWith unknownNop 0x8008 asReset (fun t => t.mode == .running && t.pc == 0x202) = true := by
  decide
/-- E11: the reset state with no LOAD. -/
theorem test_step_from_bare_reset : answers (step State.reset)
    (fun t => t.fault.opcode == 0 && t.fault.pc == 0x200 && t.status == 0x0342) = true := by decide

/-! ### Display (vectors D) -/

/-- D1. -/
theorem test_cls : after 0x00E0 (fun s => lit 31 63 (lit 0 0 (s.setV vF 5)))
    (fun t => t.fb == FrameBuffer.blank && t.getV vF == 5 && t.fbChanged && t.pc == 0x202) = true := by decide
/-- W5: both axes at the edge; the row wraps to column 0. -/
theorem test_drw_wraps : after 0xD011 (fun s => memAt 0x300 [0xFF] (regs2 0 0x3F 1 0x1F s))
    (fun t => t.fb.pixel 31 63 && t.fb.pixel 31 0 && t.fb.pixel 31 6 && !t.fb.pixel 31 7 && !t.fb.pixel 0 0 &&
      t.getV vF == 0) = true := by decide
/-- D5: a pixel that was 1 is cleared. -/
theorem test_drw_collision : after 0xD011 (fun s => memAt 0x300 [0xC0] (lit 0 0 s))
    (fun t => !t.fb.pixel 0 0 && t.fb.pixel 0 1 && t.getV vF == 1) = true := by decide
/-- D10. -/
theorem test_drw_range : after 0xD013 (State.setI 0xFFE)
    (fun t => t.fb == FrameBuffer.blank && t.fault.opcode == 0xD013 && t.status == 0x0282 && !t.fbChanged) = true := by
  decide

/-! ### Control transfer (vectors C) -/

/-- C7. -/
theorem test_ret : after 0x00EE (stackOf 1 0x206) (fun t => t.pc == 0x206 && t.sp == 0 && t.stack[0] == 0x206) = true := by
  decide
/-- C8. -/
theorem test_ret_underflow : after 0x00EE asReset (fun t => t.pc == 0x200 && t.status == 0x0302) = true := by decide
/-- C2: an odd target. -/
theorem test_jp : after 0x1301 asReset (fun t => t.pc == 0x301) = true := by decide
/-- C5. -/
theorem test_call : after 0x2300 (stackOf 15 0x204)
    (fun t => t.pc == 0x300 && t.sp == 16 && t.stack[15] == 0x202 && t.stack[14] == 0x204) = true := by decide
/-- C6. -/
theorem test_call_overflow : after 0x2300 (stackOf 16 0x204)
    (fun t => t.pc == 0x200 && t.sp == 16 && t.fault.opcode == 0x2300 && t.status == 0x02C2) = true := by decide
/-- C10, C11. -/
theorem test_se_byte_skips : after 0x3112 (State.setV 1 0x12) (fun t => t.pc == 0x204) = true := by decide
theorem test_se_byte_falls : after 0x3113 (State.setV 1 0x12) (fun t => t.pc == 0x202) = true := by decide
/-- C12, C13. -/
theorem test_sne_byte_falls : after 0x4112 (State.setV 1 0x12) (fun t => t.pc == 0x202) = true := by decide
theorem test_sne_byte_skips : after 0x4113 (State.setV 1 0x12) (fun t => t.pc == 0x204) = true := by decide
/-- C14, C15. -/
theorem test_se_reg_skips : after 0x5120 (regs2 1 0x33 2 0x33) (fun t => t.pc == 0x204) = true := by decide
theorem test_se_reg_falls : after 0x5120 (regs2 1 0x33 2 0x34) (fun t => t.pc == 0x202) = true := by decide
/-- C17, C18. -/
theorem test_sne_reg_skips : after 0x9120 (regs2 1 0x33 2 0x34) (fun t => t.pc == 0x204) = true := by decide
theorem test_sne_reg_falls : after 0x9120 (regs2 1 0x33 2 0x33) (fun t => t.pc == 0x202) = true := by decide
/-- C19, C21. -/
theorem test_jp_v0 : after 0xB300 (State.setV 0 2) (fun t => t.pc == 0x302) = true := by decide
theorem test_jp_v0_past_memory : after 0xBFFF (State.setV 0 0xFF) (fun t => t.pc == 0x10FE) = true := by decide

/-! ### Arithmetic and logic (vectors A) -/

/-- A2: VF is an ordinary destination. -/
theorem test_ld_byte : after 0x6FAA asReset (fun t => t.getV vF == 0xAA) = true := by decide
/-- A3. -/
theorem test_add_byte_wraps : after 0x7101 (regs2 1 0xFF vF 7) (fun t => t.getV 1 == 0 && t.getV vF == 7) = true := by
  decide
/-- A5. -/
theorem test_ld_reg : after 0x8120 (State.setV 2 0x9C) (fun t => t.getV 1 == 0x9C) = true := by decide
/-- A6, A7, A8. -/
theorem test_or : after 0x8121 (fun s => (regs2 1 0xF0 2 0x0F s).setV vF 5)
    (fun t => t.getV 1 == 0xFF && t.getV vF == 5) = true := by decide
theorem test_and : after 0x8122 (regs2 1 0xF0 2 0x3C) (fun t => t.getV 1 == 0x30) = true := by decide
theorem test_xor : after 0x8123 (regs2 1 0xFF 2 0x0F) (fun t => t.getV 1 == 0xF0) = true := by decide
/-- A13, A15. -/
theorem test_add_reg_carry : after 0x8124 (regs2 1 0xFF 2 0xFF) (fun t => t.getV 1 == 0xFE && t.getV vF == 1) = true := by
  decide
theorem test_add_reg_to_vf : after 0x8F14 (regs2 1 0x80 vF 0x80) (fun t => t.getV vF == 1) = true := by decide
/-- A18, A17. -/
theorem test_sub_borrow : after 0x8125 (regs2 1 3 2 5) (fun t => t.getV 1 == 0xFE && t.getV vF == 0) = true := by decide
theorem test_sub_no_borrow : after 0x8125 (regs2 1 5 2 3) (fun t => t.getV 1 == 2 && t.getV vF == 1) = true := by decide
/-- A21, A25: the two values of `SHIFT_SOURCE`. -/
theorem test_shr_vy : after 0x8126 (regs2 1 0 2 5) (fun t => t.getV 1 == 2 && t.getV vF == 1 && t.getV 2 == 5) = true := by
  decide
theorem test_shr_vx : afterWith shiftVx 0x8126 (regs2 1 5 2 4) (fun t => t.getV 1 == 2 && t.getV vF == 1) = true := by decide
/-- A27, A26. -/
theorem test_subn_borrow : after 0x8127 (regs2 1 5 2 3) (fun t => t.getV 1 == 0xFE && t.getV vF == 0) = true := by decide
theorem test_subn_no_borrow : after 0x8127 (regs2 1 3 2 5) (fun t => t.getV 1 == 2 && t.getV vF == 1) = true := by decide
/-- A29, A32. -/
theorem test_shl_vy : after 0x812E (State.setV 2 0x81) (fun t => t.getV 1 == 2 && t.getV vF == 1) = true := by decide
theorem test_shl_vx : afterWith shiftVx 0x812E (regs2 1 1 2 0x80) (fun t => t.getV 1 == 2 && t.getV vF == 0) = true := by
  decide
/-- A33, A35: the effect of CXNN for a byte the `rnd` port presents. -/
theorem test_rnd_masks : (drawRandom 0xA5 1 0x0F State.reset).getV 1 = 0x05 := by decide
theorem test_rnd_all_bits : (drawRandom 0x3C 1 0xFF State.reset).getV 1 = 0x3C := by decide

/-! ### Index register and memory (vectors M) -/

/-- M1. -/
theorem test_ld_i : after 0xA123 asReset (fun t => t.i == 0x123) = true := by decide
/-- M3, M4. -/
theorem test_add_i_past_fff : after 0xF11E (fun s => (regs2 1 1 vF 9 s).setI 0xFFF)
    (fun t => t.i == 0x1000 && t.getV vF == 9 && t.mode == .running) = true := by decide
theorem test_add_i_wraps : after 0xF11E (fun s => (s.setV 1 2).setI 0xFFFF) (fun t => t.i == 1) = true := by decide
/-- W7, M8. -/
theorem test_ld_f : after 0xF029 (State.setV 0 0xA) (fun t => t.i == 50) = true := by decide
theorem test_ld_f_unmasked : after 0xF129 (State.setV 1 0xFF) (fun t => t.i == 0x4FB) = true := by decide
/-- M12, M15. -/
theorem test_ld_b : after 0xF133 (fun s => (s.setV 1 0x7B).setI 0xFFD)
    (fun t => t.byteAt 0xFFD == 1 && t.byteAt 0xFFE == 2 && t.byteAt 0xFFF == 3 && t.i == 0xFFD) = true := by decide
theorem test_ld_b_font_allowed : afterWith fontAllow 0xF133 (fun s => (s.setV 1 0x7B).setI 0x04E)
    (fun t => t.byteAt 0x04E == 1 && t.byteAt 0x04F == 2 && t.byteAt 0x050 == 3) = true := by decide
/-- M17, M21. -/
theorem test_ld_mem : after 0xF255 (fun s => ((regs2 0 1 1 2 s).setV 2 3).setI 0x300)
    (fun t => t.byteAt 0x300 == 1 && t.byteAt 0x301 == 2 && t.byteAt 0x302 == 3 && t.byteAt 0x303 == 0 && t.i == 0x303) =
      true := by decide
theorem test_ld_mem_font : after 0xF055 (State.setI 0x04F)
    (fun t => t.status == 0x0382 && t.i == 0x04F && t.byteAt 0x04F == 0x80) = true := by decide
/-- M26: V0 to V4 take the bytes of glyph 0. -/
theorem test_ld_x_mem : after 0xF465 asReset
    (fun t => t.getV 0 == 0xF0 && t.getV 1 == 0x90 && t.getV 2 == 0x90 && t.getV 3 == 0x90 && t.getV 4 == 0xF0 &&
      t.getV 5 == 0 && t.i == 5) = true := by decide
/-- M27. -/
theorem test_ld_x_mem_range : after 0xF065 (State.setI 0xFFFF) (fun t => t.status == 0x0282 && t.i == 0xFFFF) = true := by
  decide

/-! ### Keys and timers (vectors K) -/

/-- K1, K5. -/
theorem test_skp : after 0xE19E (fun s => held 7 (s.setV 1 7)) (fun t => t.pc == 0x204) = true := by decide
theorem test_skp_no_such_key : after 0xE19E (fun s => held 7 (s.setV 1 0x17)) (fun t => t.pc == 0x202) = true := by decide
/-- K3, K6. -/
theorem test_sknp : after 0xE1A1 (fun s => held 7 (s.setV 1 7)) (fun t => t.pc == 0x202) = true := by decide
theorem test_sknp_no_such_key : after 0xE1A1 (fun s => held 7 (s.setV 1 0x17)) (fun t => t.pc == 0x204) = true := by decide
/-- K7, K14, K16. -/
theorem test_ld_x_dt : after 0xF107 (fun s => { s with dt := 0x20 }) (fun t => t.getV 1 == 0x20) = true := by decide
theorem test_ld_dt_x : after 0xF115 (State.setV 1 5) (fun t => t.dt == 5) = true := by decide
theorem test_ld_st_x : after 0xF118 (State.setV 1 1) (fun t => t.st == 1 && t.soundActive) = true := by decide
/-- K8, K9: a held key does not end the wait. -/
theorem test_ld_x_k : after 0xF30A asReset
    (fun t => t.mode == .awaitKey && t.awaitTarget == 3 && t.pc == 0x202 && t.status == 0x000D) = true := by decide
theorem test_ld_x_k_key_held : after 0xF00A (held 3) (fun t => t.mode == .awaitKey && t.getV 0 == 0) = true := by decide

/-! ### Events (vectors V, K and E) -/

/-- K12. -/
theorem test_key_down_ends_wait : afterEvent (.keyDown 0xC) (waiting 0xF State.reset)
    (fun t => t.getV vF == 0xC && t.mode == .running && t.keys[0xC] && t.status == 0) = true := by decide
/-- K10. -/
theorem test_key_up_keeps_wait : afterEvent (.keyUp 3) (held 3 (waiting 0 State.reset))
    (fun t => t.mode == .awaitKey && !t.keys[3]) = true := by decide
/-- K13, V1, V3. -/
theorem test_tick_in_wait : afterEvent .timerTick { waiting 0 State.reset with dt := 2 }
    (fun t => t.dt == 1 && t.st == 0) = true := by decide
theorem test_tick_halted : afterEvent .timerTick { halted State.reset with dt := 5, st := 3 }
    (fun t => t.dt == 5 && t.st == 3 && t.soundActive) = true := by decide
/-- V10. -/
theorem test_load : afterEvent (.load [0x12, 0x34]) (memAt 0x300 [0x55] State.reset)
    (fun t => t.byteAt 0x200 == 0x12 && t.byteAt 0x201 == 0x34 && t.byteAt 0x300 == 0x55 && t.loadResult == some .ok) =
      true := by decide
/-- V12. -/
theorem test_reset : afterEvent .reset (halted (memAt 0x200 [0x12] (State.reset.setV 1 5)))
    (fun t => t == State.reset) = true := by decide
/-- E10. -/
theorem test_step_halted : afterEvent .step (halted State.reset) (fun t => t == halted State.reset) = true := by decide
/-- Writing back what an unlisted address reads as removes the entry: equal memories are equal lists. -/
theorem test_memory_canonical :
    ((State.reset.writeMem Config.hardware 0x300 7).writeMem Config.hardware 0x300 0).mem = [] := by decide
/-- The words of a program that LOAD places are what a STEP then fetches (R79, R133). -/
theorem test_step_after_load : answers (step ((loadEvent Config.hardware [0x6A, 0x3C] State.reset)))
    (fun t => t.getV 0xA == 0x3C && t.pc == 0x202) = true := by decide

/-! ### Witnesses: states and operands that meet the hypotheses of the statements, clause by clause at the edges

A statement without a hypothesis has none here. -/

/-- The reset state at the last pc from which a word can be fetched, holding a word there. -/
def lastWord (op : Nat) : State := (State.reset.setPc 0xFFE).withFetchWord 16 op

theorem witness_DecodeOfEncodeIsIdentity : (Instr.drw 0xF 0xF 15).wf = true := by decide
theorem witness_EncodeOfDecodeIsIdentity : decodeWord 0xDFFF = .ok (.drw 0xF 0xF 15) := by decide
theorem witness_DecoderAgreesWithMaskTable_row : Instr.row (.shl 0 0) ∈ opcodeTable ∧
    (Instr.row (.shl 0 0)).selects 0x8ABE = true ∧ decodeWord 0x8ABE = .ok (.shl 0xA 0xB) := by decide
theorem witness_StepRunsTheDecodedInstruction : nextEvent (lastWord 0x6A3C) = .step ∧ (lastWord 0x6A3C).mode = .running ∧
    (lastWord 0x6A3C).pc.toNat + 1 = 0xFFF ∧
    decodeWord (wordAtPc Config.hardware (lastWord 0x6A3C)) = .ok (.ldByte 0xA 0x3C) := by decide
theorem witness_FetchOutOfRangeHalts : nextEvent (State.reset.setPc 0xFFF) = .step ∧
    (State.reset.setPc 0xFFF).mode = .running ∧ (State.reset.setPc 0xFFF).pc.toNat + 1 > 0xFFF := by decide
theorem witness_UnknownOpcodeFollowsPolicy_fault : nextEvent (lastWord 0x8008) = .step ∧
    (lastWord 0x8008).mode = .running ∧ (lastWord 0x8008).pc.toNat + 1 ≤ 0xFFF ∧
    decodeWord (wordAtPc Config.hardware (lastWord 0x8008)) = .error .family8 ∧
    Config.hardware.unknownOpcodePolicy = .fault := by decide
theorem witness_UnknownOpcodeFollowsPolicy_nop :
    decodeWord (wordAtPc unknownNop (lastWord 0x8008)) = .error .family8 ∧ unknownNop.unknownOpcodePolicy = .nop := by decide
theorem witness_StepWhileAwaitingKeyChangesNothing : nextEvent (waiting 3 State.reset) = .step ∧
    (waiting 3 State.reset).mode = .awaitKey ∧
    nextEvent { waiting 3 State.reset with schedule := [.timerTick] } = .timerTick := by decide
theorem witness_FaultsArePrecise : State.reset.mode = .running ∧
    answers (exec .ret State.reset) (fun t => t.mode == .halted) = true := by decide

/-- One instruction for each cause and form of `InstructionsRaiseExactlyTheirCauses`, at the first value that raises. -/
theorem witness_InstructionsRaiseExactlyTheirCauses_stack :
    answers (exec (.call 0) (stackOf 16 0 State.reset)) (fun t => t.mode == .halted && t.fault.cause == .stackOverflow) = true ∧
    answers (exec .ret State.reset) (fun t => t.mode == .halted && t.fault.cause == .stackUnderflow) = true := by decide
theorem witness_InstructionsRaiseExactlyTheirCauses_range :
    answers (exec (.drw 0 0 1) (State.reset.setI 0x1000)) (fun t => t.fault.cause == .memRange) = true ∧
    answers (exec (.drw 0 0 1) (State.reset.setI 0xFFF)) (fun t => t.mode == .running) = true ∧
    answers (exec (.ldBX 0) (State.reset.setI 0xFFE)) (fun t => t.fault.cause == .memRange) = true ∧
    answers (exec (.ldMemX 1) (State.reset.setI 0xFFF)) (fun t => t.fault.cause == .memRange) = true ∧
    answers (exec (.ldXMem 1) (State.reset.setI 0xFFF)) (fun t => t.fault.cause == .memRange) = true ∧
    answers (exec (.ldXMem 0) (State.reset.setI 0xFFF)) (fun t => t.mode == .running) = true := by decide
theorem witness_InstructionsRaiseExactlyTheirCauses_font :
    answers (exec (.ldBX 0) (State.reset.setI 0x04F)) (fun t => t.fault.cause == .fontWrite) = true ∧
    answers (exec (.ldMemX 0) (State.reset.setI 0x04F)) (fun t => t.fault.cause == .fontWrite) = true ∧
    answers (exec (.ldMemX 0) (State.reset.setI 0x050)) (fun t => t.mode == .running) = true := by decide

theorem witness_ResetEventReinitializesEverything :
    ∃ rest, ({ halted State.reset with schedule := [.reset, .step] } : State).schedule = .reset :: rest := ⟨[.step], rfl⟩

/-- A state after some steps that meets the invariant: it is halted, at the largest pc there is, with a byte stored and
the largest return address. -/
def deep : State := (memAt 0xFFF [0x12] ((stackOf 16 0x1000 State.reset).setPc 0x10FE)).enterHalt .fetchRange 0
theorem witness_StepKeepsInvariant : deep.Inv ∧ answers (step deep) (fun t => t == deep) = true :=
  ⟨⟨by decide, by decide, by decide, by decide, by decide, by decide⟩, by decide⟩

theorem witness_TimerTickDecrementsBothTimers :
    ∃ rest, ({ State.reset with dt := 5, schedule := [.timerTick] } : State).schedule = .timerTick :: rest := ⟨[], rfl⟩
theorem witness_TimerTick_other_writers :
    after 0xF115 (State.setV 1 5) (fun t => t.dt != 0) = true ∧ after 0xF118 (State.setV 1 5) (fun t => t.st != 0) = true := by
  decide
theorem witness_TimersAfterTicksAreLessByTheirCount : ({ State.reset with dt := 5 } : State).mode ≠ .halted ∧
    ∃ rest, ({ State.reset with dt := 5, schedule := List.replicate 6 .timerTick ++ [.step] } : State).schedule =
      List.replicate 6 HostEvent.timerTick ++ rest := ⟨by decide, [.step], rfl⟩
theorem witness_KeyDownHoldsKeyAndEndsWait : (waiting 0xF State.reset).mode = .awaitKey ∧ State.reset.mode ≠ .awaitKey ∧
    ∃ rest, ({ waiting 0xF State.reset with schedule := [.keyDown 0xF] } : State).schedule = .keyDown 0xF :: rest :=
  ⟨by decide, by decide, [], rfl⟩
theorem witness_KeyUpReleasesKeyOnly :
    ∃ rest, ({ held 3 State.reset with schedule := [.keyUp 3] } : State).schedule = .keyUp 3 :: rest := ⟨[], rfl⟩
/-- The longest image that fits, and the shortest that does not. -/
theorem witness_LoadWritesItsBytesOnly : (List.replicate 0xE00 (0x12 : Byte)).length ≤ 0xE00 ∧
    ∃ rest, ({ State.reset with schedule := [.load (List.replicate 0xE00 0x12)] } : State).schedule =
      .load (List.replicate 0xE00 0x12) :: rest := ⟨Nat.le_of_eq List.length_replicate, [], rfl⟩
theorem witness_OversizedLoadChangesNothing : (List.replicate 0xE01 (0x12 : Byte)).length > 0xE00 ∧
    ∃ rest, ({ State.reset with schedule := [.load (List.replicate 0xE01 0x12)] } : State).schedule =
      .load (List.replicate 0xE01 0x12) :: rest := ⟨by rw [List.length_replicate]; exact Nat.lt_succ_self 0xE00, [], rfl⟩
theorem witness_HaltedCoreIsFrozen : (halted State.reset).mode = .halted ∧ nextEvent (halted State.reset) = .step ∧
    nextEvent { halted State.reset with schedule := [.timerTick] } = .timerTick ∧
    nextEvent { halted State.reset with schedule := [.keyDown 0xF] } = .keyDown 0xF ∧
    nextEvent { halted State.reset with schedule := [.keyUp 0] } = .keyUp 0 ∧
    nextEvent { halted State.reset with schedule := [.load [0x12]] } = .load [0x12] := by decide
theorem witness_AwaitKeyIsEnteredAndLeftAsStated : State.reset.mode = .running ∧
    answers (exec (.ldXK 0xF) State.reset) (fun t => t.mode == .awaitKey) = true ∧
    (waiting 0xF State.reset).mode = .awaitKey ∧
    afterEvent (.keyDown 0) (waiting 0xF State.reset) (fun t => t.mode == .running) = true ∧
    afterEvent .reset (waiting 0xF State.reset) (fun t => t.mode == .running) = true := by decide
theorem witness_OnlyResetWritesTheFontRegion : nextEvent { State.reset with schedule := [.reset] } = .reset ∧
    nextEvent State.reset ≠ .reset ∧ Config.hardware.fontWritePolicy = .fault ∧
    answers (stepWith Config.hardware State.reset) (fun _ => true) = true := by decide
theorem witness_OnlyStepAndResetChangePc :
    afterEvent (.load [0x12]) State.reset (fun t => t.pc == 0x200) = true := by decide
theorem witness_DisplayHasOnlyItsWritePaths :
    after 0xD011 (memAt 0x300 [0xFF]) (fun t => t.fb.pixel 0 0) = true ∧
    after 0x00E0 (lit 0 0) (fun t => !t.fb.pixel 0 0) = true ∧
    afterEvent .reset (lit 0 0 State.reset) (fun t => !t.fb.pixel 0 0) = true := by decide
theorem witness_OtherStateHasOnlyItsWriters :
    after 0xA123 asReset (fun t => t.i != 0) = true ∧
    after 0x2300 asReset (fun t => t.stack[0] != 0 && t.sp != 0) = true ∧
    afterEvent (.keyDown 0xF) State.reset (fun t => t.keys[0xF]) = true ∧
    afterEvent (.load [0x12]) State.reset (fun t => t.byteAt 0x200 == 0x12) = true ∧
    after 0xF133 (fun s => (s.setV 1 0x7B).setI 0x300) (fun t => t.byteAt 0x300 == 1) = true := by decide
theorem witness_FbChangedPulsesForDrawAndClear :
    after 0xD010 asReset (fun t => t.fbChanged) = true ∧ after 0xD013 (State.setI 0xFFE) (fun t => !t.fbChanged) = true := by
  decide
theorem witness_FlagRegisterHasOnlyItsWriters :
    answers (exec (.ldXMem 0xF) State.reset) (fun t => t.getV vF != 0) = true ∧
    answers (exec (.addReg 0 1) (regs2 0 0xFF 1 1 State.reset)) (fun t => t.getV vF != 0) = true := by decide
/-- A jump to itself in the last word of memory. -/
theorem witness_ParkedStateStaysAsItIs : (lastWord 0x1FFE).parked ∧ nextEvent (lastWord 0x1FFE) = .step :=
  ⟨⟨by decide, by decide, by decide, by decide⟩, by decide⟩
theorem witness_DrwXorsTheSpriteOntoTheDisplay : 15 < 16 ∧ (State.reset.setI 0xFF1).i.toNat + 15 - 1 = 0xFFF ∧
    (State.reset.setI 0xFF2).i.toNat + 15 - 1 > 0xFFF := by decide
/-- The alternative n = 0, with I where no byte can be read (vector D9). -/
theorem witness_DrwXorsTheSpriteOntoTheDisplay_no_rows : (0 < 16 ∧ (State.reset.setI 0xFFFF).i.toNat > 0xFFF) ∧
    answers (exec (.drw 0 0 0) ((State.reset.setI 0xFFFF).setV vF 7))
      (fun t => t.mode == .running && t.getV vF == 0 && t.fbChanged && t.pc == 0x202) = true := by decide
theorem witness_CollisionFlagIsSetExactlyWhenAPixelIsCleared_set :
    answers (exec (.drw 0 1 1) (memAt 0x300 [0xC0] (lit 0 0 State.reset)))
      (fun t => t.mode == .running && !t.fb.pixel 0 0 && t.getV vF == 1) = true := by decide
theorem witness_CollisionFlagIsSetExactlyWhenAPixelIsCleared_clear :
    answers (exec (.drw 0 1 1) (memAt 0x300 [0xC0] State.reset)) (fun t => t.mode == .running && t.getV vF == 0) = true := by
  decide
theorem witness_DrawingTwiceRestoresTheDisplay : 15 < 16 ∧ (0xE : Reg) ≠ vF ∧ (0 : Reg) ≠ vF ∧
    (State.reset.setI 0xFF1).i.toNat + 15 - 1 ≤ 0xFFF := by decide
theorem witness_RetPopsTheReturnAddress : (stackOf 16 0x1000 State.reset).sp.val ≠ 0 ∧ State.reset.sp.val = 0 := by decide
theorem witness_CallPushesTheNextAddress : (stackOf 15 0 State.reset).sp.val < 16 ∧
    (stackOf 16 0 State.reset).sp.val = 16 := by decide
theorem witness_ReturnComesBackAfterTheCall : (stackOf 15 0 State.reset).sp.val < 16 ∧
    ∃ t, exec (.call 0x300) (stackOf 15 0 State.reset) = .next t ∧ (t.setV 0 1).stack = t.stack ∧ (t.setV 0 1).sp = t.sp :=
  ⟨by decide, _, rfl, rfl, rfl⟩
/-- X other than 0xF, the premise of one clause of `AddRegCarriesIntoVF`, `SubtractionsPutNotBorrowIntoVF` and
`ShiftsPutTheBitShiftedOutIntoVF`; their other clauses hold for X = 0xF too. -/
theorem witness_flag_writers_other_than_vF : (0xE : Reg) ≠ vF ∧ (0xF : Reg) = vF := by decide
theorem witness_LdBStoresDecimalDigits : (State.reset.setI 0xFFD).i.toNat + 2 = 0xFFF ∧
    0x04F < (State.reset.setI 0x050).i.toNat ∧ fontAllow.fontWritePolicy = .allow ∧
    (State.reset.setI 0xFFE).i.toNat + 2 > 0xFFF ∧ (State.reset.setI 0x04F).i.toNat ≤ 0x04F := by decide
theorem witness_LdMemStoresRegisters : (State.reset.setI 0xFF0).i.toNat + (0xF : Reg).val = 0xFFF ∧
    0x04F < (State.reset.setI 0x050).i.toNat ∧ (State.reset.setI 0xFF1).i.toNat + (0xF : Reg).val > 0xFFF ∧
    (State.reset.setI 0x04F).i.toNat ≤ 0x04F := by decide
theorem witness_LdXMemLoadsRegisters : (State.reset.setI 0xFF0).i.toNat + (0xF : Reg).val = 0xFFF ∧
    (State.reset.setI 0xFF1).i.toNat + (0xF : Reg).val > 0xFFF := by decide
theorem witness_StoreThenLoadRestoresRegisters : 0x04F < (State.reset.setI 0x050).i.toNat ∧
    (State.reset.setI 0x050).i.toNat + (0xF : Reg).val ≤ 0xFFF ∧
    ∃ t, exec (.ldMemX 0xF) (State.reset.setI 0x050) = .next t ∧ (t.setI 0x050).mem = t.mem ∧ (t.setI 0x050).i = 0x050 :=
  ⟨by decide, by decide, _, rfl, rfl, rfl⟩
/-- A code that names a held key, the largest one, and the first code that names none. -/
theorem witness_KeySkipsFollowTheHeldKeys :
    (∃ k : Fin 16, ((held 0xF State.reset).setV 1 0xF |>.getV 1).toNat = k.val ∧ (held 0xF State.reset).keys[k] = true) ∧
    ¬ (∃ k : Fin 16, ((held 0xF State.reset).setV 1 0x10 |>.getV 1).toNat = k.val ∧
      (held 0xF State.reset).keys[k] = true) := by decide

end Sys2Proof.Tests
end

/-! The font region 0x000 to 0x04F: RESET is the only event that writes it while `FONT_WRITE_POLICY` = `FAULT`
(R80). First what each event does to memory, then what each event that can write does to the bytes of the font. -/

namespace Sys2Proof.Machine

/-! ### What the events do to memory -/

@[simp] theorem timerTick_mem (s : State) : (timerTick s).mem = s.mem := by
  unfold timerTick
  split <;> rfl

@[simp] theorem keyDown_mem (k : Fin 16) (s : State) : (keyDown k s).mem = s.mem := by
  unfold keyDown
  split <;> rfl

@[simp] theorem keyUp_mem (k : Fin 16) (s : State) : (keyUp k s).mem = s.mem := rfl

/-- Under either policy of R135 an unrecognized word writes no memory. -/
theorem unknownOpcode_mem {c : Config} {op : Word} {s t : State} (h : unknownOpcode c op s = .next t) :
    t.mem = s.mem := by
  unfold unknownOpcode at h
  split at h
  · injection h with h; subst h; rfl
  · injection h with h; subst h; rfl

/-- After a RESET every address reads as its reset contents. -/
@[simp] theorem readMem_resetEvent (c : Config) (s : State) (a : Nat) :
    (resetEvent s).readMem c a = Memory.background c a := rfl

/-- A LOAD leaves the bytes below 0x200 alone, whether it is refused or not (R79). -/
theorem readMem_loadEvent_below (c : Config) (b : List Byte) (s : State) {a : Nat} (ha : a < progBase) :
    (loadEvent c b s).readMem c a = s.readMem c a := by
  unfold loadEvent
  split
  · rfl
  · exact State.readMem_writeBytes_other c b progBase s (.inl ha)

/-! ### The font region -/

/-- Glyph `d` of the font stands at the addresses from `5 * d` in the reset contents (R62). -/
theorem Memory.background_glyph (c : Config) (d : Fin 16) (j : Fin 5) :
    Memory.background c (5 * d.val + j.val) = c.font[d][j] := by
  have hlt : 5 * d.val + j.val < 80 := by omega
  have hdiv : (5 * d.val + j.val) / 5 = d.val := by omega
  have hmod : (5 * d.val + j.val) % 5 = j.val := by omega
  simp [Memory.background, hlt, hdiv, hmod]

/-- No instruction writes a font that `FONT_WRITE_POLICY` = `FAULT` protects: what it writes starts at I, and a write
with I in the font has failed its check (R65). -/
theorem execWith_readMem_font {c : Config} {i : Instr} {s t : State} (h : execWith c i s = .next t)
    (hc : c.fontWritePolicy = .fault) {a : Nat} (ha : a ≤ 0x04F) : t.readMem c a = s.readMem c a := by
  obtain hmem | ⟨ws, hmem, -, hprotected⟩ := execWith_mem h
  · exact State.readMem_congr hmem a
  · have hbase : 0x04F < s.i.toNat := by
      by_contra hle
      exact hprotected ⟨by omega, hc⟩
    rw [State.readMem_congr hmem a]
    exact State.readMem_writeBytes_other c ws _ s (.inl (by omega))

/-- No event but RESET writes a font that `FONT_WRITE_POLICY` = `FAULT` protects. -/
theorem stepWith_readMem_font {c : Config} {s t : State} (h : stepWith c s = .next t) (he : nextEvent s ≠ .reset)
    (hc : c.fontWritePolicy = .fault) {a : Nat} (ha : a ≤ 0x04F) : t.readMem c a = s.readMem c a := by
  obtain ⟨-, -, rfl⟩ | ⟨-, -, -, rfl⟩ | ⟨-, -, -, ⟨i, -, hexec⟩ | ⟨why, -, hunknown⟩⟩ | ⟨-, rfl⟩ | ⟨k, -, rfl⟩ |
    ⟨k, -, rfl⟩ | ⟨hreset, -⟩ | ⟨b, -, rfl⟩ := advance_cases h
  · exact State.readMem_congr s.beginEvent_mem a
  · exact State.readMem_congr (by simp) a
  · exact execWith_readMem_font hexec hc ha
  · exact State.readMem_congr (unknownOpcode_mem hunknown) a
  · exact State.readMem_congr (by simp) a
  · exact State.readMem_congr (by simp) a
  · exact State.readMem_congr (by simp) a
  · exact absurd hreset he
  · exact readMem_loadEvent_below c b s.beginEvent (by simp only [progBase]; omega)

/-- A step whose event is RESET leaves the state of RESET. -/
theorem stepWith_reset {c : Config} {s t : State} (h : stepWith c s = .next t) (he : nextEvent s = .reset) :
    t = resetEvent s.beginEvent := by
  simp only [stepWith, advance, he, applyEvent] at h
  injection h with h
  exact h.symm

/-- Settles O26: RESET puts back the reset contents, whose first 80 bytes are the font, and no other event reaches the
font region under `FAULT`. -/
theorem onlyResetWritesTheFontRegion : Obligations.OnlyResetWritesTheFontRegion := by
  intro c s t h
  constructor
  · intro he d j
    rw [stepWith_reset h he, readMem_resetEvent, Memory.background_glyph]
  · intro he hc a ha
    exact stepWith_readMem_font h he hc ha

end Sys2Proof.Machine

/-! The events of a core that waits for a key: a STEP leaves the state as it finds it (R131), a TIMER_TICK counts the
timers down (R311). -/

namespace Sys2Proof.Machine

/-! ### The timers -/

/-- A countdown is subtraction cut off at 0. -/
@[simp] theorem countdown_toNat (b : Byte) : (countdown b).toNat = b.toNat - 1 := by
  unfold countdown
  split
  · bv_omega
  · omega

/-- A tick of a core that is not halted writes the two timers and nothing else. -/
theorem timerTick_of_ne_halted {s : State} (hm : s.mode ≠ .halted) :
    timerTick s = { s with dt := countdown s.dt, st := countdown s.st } := by
  cases h : s.mode with
  | halted => exact absurd h hm
  | running => simp only [timerTick, h]
  | awaitKey => simp only [timerTick, h]

/-- The step whose event is TIMER_TICK. -/
theorem step_timerTick {s : State} (he : nextEvent s = .timerTick) : step s = .next (timerTick s.beginEvent) := by
  simp only [step, advance, he, applyEvent]

/-! ### The wait -/

/-- From a state to itself no part changes, whichever parts may. -/
theorem changesOnlyIn_refl (c : Config) (parts : List Part) (s : State) : changesOnlyIn c parts s s := by
  intro p _
  cases p <;> rfl

/-- Settles O9: a STEP outside `RUNNING` only begins its event, and a tick is stopped by `HALTED` alone. -/
theorem stepWhileAwaitingKeyChangesNothing : Obligations.StepWhileAwaitingKeyChangesNothing := by
  constructor
  · intro s he hm
    have hstep : step s = .next s.beginEvent := advance_notRunning he (by simp [hm])
    exact ⟨s.beginEvent, hstep, s.beginEvent_mem, changesOnlyIn_refl _ _ _⟩
  · intro s he hm
    have htick := timerTick_of_ne_halted (s := s.beginEvent) (by simp [hm])
    exact ⟨_, (step_timerTick he).trans (congrArg _ htick), countdown_toNat s.dt, countdown_toNat s.st, hm, rfl⟩

end Sys2Proof.Machine

/-! The collision flag of DXYN (R163): what a completed DXYN leaves on the display and in VF, in the terms of the
statements, from what the blit does. -/

namespace Sys2Proof.Machine

open Sys2Proof.Statements

/-! ### Flags -/

/-- The byte of a flag is 1 exactly when the flag is set. -/
@[simp] theorem flagByte_eq_one (b : Bool) : flagByte b = 1 ↔ b = true := by
  cases b <;> decide

/-- The byte of a flag is 0 exactly when the flag is clear. -/
@[simp] theorem flagByte_eq_zero (b : Bool) : flagByte b = 0 ↔ b = false := by
  cases b <;> decide

/-! ### The sprite's bits -/

/-- The rows that DXYN blits have a 1 bit on a pixel exactly when the DXYN hits that pixel. -/
theorem spriteRows_hit_iff (x y : Reg) (n : Nat) (s : State) {r col : Nat} (hr : r < 32) (hc : col < 64) :
    (∃ k, ∃ h : k < (spriteRows Config.hardware n s).length, ((s.getV y).toNat + k) % 32 = r % 32 ∧
      ∃ j < 8, ((s.getV x).toNat + j) % 64 = col % 64 ∧ spriteBit (spriteRows Config.hardware n s)[k] j = true) ↔
    spriteHits x y n s r col := by
  simp only [spriteRows_getElem, spriteRows_length, Nat.mod_eq_of_lt hr, Nat.mod_eq_of_lt hc]
  constructor
  · rintro ⟨k, hk, hrow, j, hj, hcol, hbit⟩
    exact ⟨k, hk, j, hj, hrow, hcol, hbit⟩
  · rintro ⟨k, hk, j, hj, hrow, hcol, hbit⟩
    exact ⟨k, hk, hrow, j, hj, hcol, hbit⟩

/-- A 1 bit of the rows that DXYN blits falls on a pixel that was 1 exactly when the DXYN hits such a pixel of the
display, whose coordinates are those of the bit modulo 32 and 64 (R160). -/
theorem spriteRows_collide_iff (x y : Reg) (n : Nat) (s : State) :
    (∃ k, ∃ h : k < (spriteRows Config.hardware n s).length, ∃ j < 8,
      spriteBit (spriteRows Config.hardware n s)[k] j = true ∧
        s.fb.pixel ((s.getV y).toNat + k) ((s.getV x).toNat + j) = true) ↔
    ∃ r < 32, ∃ col < 64, s.fb.pixel r col = true ∧ spriteHits x y n s r col := by
  simp only [spriteRows_getElem, spriteRows_length]
  constructor
  · rintro ⟨k, hk, j, hj, hbit, hset⟩
    rw [← FrameBuffer.pixel_mod] at hset
    exact ⟨_, Nat.mod_lt _ (by decide), _, Nat.mod_lt _ (by decide), hset, k, hk, j, hj, rfl, rfl, hbit⟩
  · rintro ⟨_, -, _, -, hset, k, hk, j, hj, rfl, rfl, hbit⟩
    exact ⟨k, hk, j, hj, hbit, by rwa [FrameBuffer.pixel_mod] at hset⟩

/-! ### A completed DXYN -/

/-- A pixel after DXYN: inverted exactly when the sprite hits it (R162). -/
theorem pixel_drawSprite (x y : Reg) {n : Nat} (s : State) (hn : n ≤ 32) {r col : Nat} (hr : r < 32) (hc : col < 64) :
    (drawSprite Config.hardware x y n s).fb.pixel r col = true ↔
      (s.fb.pixel r col = true ↔ ¬ spriteHits x y n s r col) := by
  have hblit := (blit_spec (spriteRows Config.hardware n s) (s.getV x).toNat (s.getV y).toNat s.fb
    (by rwa [spriteRows_length])).1 r col
  rwa [spriteRows_hit_iff x y n s hr hc] at hblit

/-- A pixel that was 1 is 0 after DXYN exactly when the sprite hits it (R163). -/
theorem pixel_drawSprite_cleared (x y : Reg) {n : Nat} {s : State} (hn : n ≤ 32) {r col : Nat} (hr : r < 32)
    (hc : col < 64) (hset : s.fb.pixel r col = true) :
    (drawSprite Config.hardware x y n s).fb.pixel r col = false ↔ spriteHits x y n s r col := by
  rw [← Bool.not_eq_true, pixel_drawSprite x y s hn hr hc, iff_true_left hset, Classical.not_not]

/-- VF after DXYN is the collision bit of the blit (R162). -/
theorem getV_vF_drawSprite (c : Config) (x y : Reg) (n : Nat) (s : State) :
    (drawSprite c x y n s).getV vF =
      flagByte (blit (spriteRows c n s) (s.getV x).toNat (s.getV y).toNat s.fb).2 :=
  State.getV_setV_same vF _ _

/-- VF after DXYN is 1 exactly when the sprite hits a pixel that was 1 (R163). -/
theorem getV_vF_drawSprite_eq_one (x y : Reg) {n : Nat} (s : State) (hn : n ≤ 32) :
    (drawSprite Config.hardware x y n s).getV vF = 1 ↔
      ∃ r < 32, ∃ col < 64, s.fb.pixel r col = true ∧ spriteHits x y n s r col := by
  rw [getV_vF_drawSprite, flagByte_eq_one, ← spriteRows_collide_iff]
  exact (blit_spec _ _ _ s.fb (by rwa [spriteRows_length])).2

/-- A DXYN after which the core runs has passed the checks of its reads and has drawn. -/
theorem exec_drw_of_running {x y : Reg} {n : Nat} {s t : State} (h : exec (.drw x y n) s = .next t)
    (hm : t.mode = .running) : t = drawSprite Config.hardware x y n s := by
  change drw Config.hardware x y n s = .next t at h
  by_cases hread : n = 0 ∨ s.i.toNat + n ≤ 0x1000
  · rw [drw_ok _ x y n s hread] at h
    injection h with h
    exact h.symm
  · rw [drw_range _ x y n s (by omega) (by omega)] at h
    injection h with h
    subst h
    cases hm

/-- Settles O36: VF is the collision bit of the blit, and a pixel that was 1 is cleared exactly when a sprite bit of 1
hits it. -/
theorem collisionFlagIsSetExactlyWhenAPixelIsCleared : Obligations.CollisionFlagIsSetExactlyWhenAPixelIsCleared := by
  intro x y n s t hn _ hexec hm
  obtain rfl := exec_drw_of_running hexec hm
  have hle : n ≤ 32 := by omega
  have hflag := getV_vF_drawSprite_eq_one x y s hle
  refine ⟨hflag, ?_, ?_, ?_⟩
  · exact hflag.trans <| exists_congr fun r => and_congr_right fun hr => exists_congr fun col =>
      and_congr_right fun hc => and_congr_right fun hset => (pixel_drawSprite_cleared x y hle hr hc hset).symm
  · intro r hr col hc hset hhit
    exact (pixel_drawSprite_cleared x y hle hr hc hset).2 hhit
  · rw [getV_vF_drawSprite, Ne, flagByte_eq_one, flagByte_eq_zero, Bool.not_eq_true]
    exact id

end Sys2Proof.Machine

/-! Control transfer (42_control.md): the targets of the jumps, the answer of a conditional skip, and what a return and a
call leave unchanged. -/

namespace Sys2Proof.Machine

open Sys2Proof.Laws

/-! ### Jumps -/

@[simp] theorem zextAddr_toNat (nnn : BitVec 12) : (zextAddr nnn).toNat = nnn.toNat :=
  BitVec.toNat_setWidth_of_le (by decide)

@[simp] theorem zextByte_toNat (b : Byte) : (zextByte b).toNat = b.toNat :=
  BitVec.toNat_setWidth_of_le (by decide)

/-- The sum of BNNN is exact: it is at most 0x10FE (R189). -/
theorem jumpV0Target_toNat (nnn : BitVec 12) (s : State) :
    (jumpV0Target nnn s).toNat = (s.getV 0).toNat + nnn.toNat := by
  have hbyte := (s.getV 0).isLt
  have haddr := nnn.isLt
  rw [jumpV0Target, BitVec.toNat_add, zextByte_toNat, zextAddr_toNat, Nat.mod_eq_of_lt (by omega)]

/-- Settles O39: a write of pc, whose target is NNN as a number. -/
theorem jpSetsThePc : Obligations.JpSetsThePc := fun nnn s =>
  ⟨EncodeMatches.encodedBy_of (EncodeMatches.jp nnn) rfl,
    s.setPc (zextAddr nnn), rfl, zextAddr_toNat nnn, rfl, changesOnlyIn_setPc _ s _⟩

/-- Settles O43: a write of pc, whose target is the exact sum. -/
theorem jpV0AddsV0ToTheTarget : Obligations.JpV0AddsV0ToTheTarget := fun nnn s =>
  ⟨EncodeMatches.encodedBy_of (EncodeMatches.jpV0 nnn) rfl,
    s.setPc (jumpV0Target nnn s), rfl, jumpV0Target_toNat nnn s, rfl, changesOnlyIn_setPc _ s _⟩

/-! ### Conditional skips -/

/-- An instruction that ends in a conditional skip moves pc on by two words or by one, and changes nothing else. -/
theorem exec_of_skipIf {i : Instr} {b : Bool} {s : State} (h : exec i s = .next (s.skipIf b)) :
    ∃ t, exec i s = .next t ∧ t.pc = s.pc + (if b then 4 else 2) ∧ t.mem = s.mem ∧ changesOnly [.pc] s t := by
  rw [skipIf_eq] at h
  exact ⟨_, h, (apply_ite (s.pc + ·) _ _ _).symm, rfl, changesOnlyIn_setPc _ s _⟩

/-- Settles O42: each of the four ends in a conditional skip on its comparison. -/
theorem conditionalSkipsCompareAndSkip : Obligations.ConditionalSkipsCompareAndSkip := by
  refine ⟨fun x nn s => ⟨EncodeMatches.encodedBy_of (EncodeMatches.seByte x nn) rfl, ?_⟩,
    fun x nn s => ⟨EncodeMatches.encodedBy_of (EncodeMatches.sneByte x nn) rfl, ?_⟩,
    fun x y s => ⟨EncodeMatches.encodedBy_of (EncodeMatches.seReg x y) rfl, ?_⟩,
    fun x y s => ⟨EncodeMatches.encodedBy_of (EncodeMatches.sneReg x y) rfl, ?_⟩⟩
  · simpa only [beq_iff_eq] using exec_of_skipIf (i := .seByte x nn) (s := s) rfl
  · simpa only [bne_iff_ne, ne_eq, ite_not] using exec_of_skipIf (i := .sneByte x nn) (s := s) rfl
  · simpa only [beq_iff_eq] using exec_of_skipIf (i := .seReg x y) (s := s) rfl
  · simpa only [bne_iff_ne, ne_eq, ite_not] using exec_of_skipIf (i := .sneReg x y) (s := s) rfl

/-! ### Call and return -/

/-- A return writes SP and pc; the popped slot keeps its value (R181, D30). -/
theorem changesOnlyIn_popped (c : Config) (s : State) (n : Fin 17) (w : Word) :
    changesOnlyIn c [.pc, .sp] s (State.setPc w { s with sp := n }) := by
  intro p hp
  cases p with
  | pc => simp at hp
  | sp => simp at hp
  | _ => rfl

/-- A call writes the slot that SP names, SP and pc; every other slot keeps its value (R180). -/
theorem changesOnlyIn_pushed (c : Config) (s : State) (j : Fin 16) (a : Word) (n : Fin 17) (w : Word) :
    changesOnlyIn c [.stackSlot j, .sp, .pc] s
      (State.setPc w { s with stack := s.stack.set j a, sp := n }) := by
  intro p hp
  cases p with
  | stackSlot k =>
    have hne : j.val ≠ k.val := fun e => hp (by simp [Fin.ext e])
    exact Vector.getElem_set_ne j.isLt k.isLt hne
  | sp => simp at hp
  | pc => simp at hp
  | _ => rfl

/-- Settles O38: on an empty stack the pop faults, and otherwise 00EE goes to the slot below SP. -/
theorem retPopsTheReturnAddress : Obligations.RetPopsTheReturnAddress := by
  refine ⟨EncodeMatches.encodedBy_of EncodeMatches.ret rfl, fun s => ⟨fun h => ?_, fun h => ?_⟩⟩
  · exact ⟨_, execRet_ok s h, rfl, rfl, rfl, changesOnlyIn_popped _ s _ _⟩
  · exact ⟨_, execRet_empty s h, haltedFrom_enterHalt _ _ s (by decide)⟩

/-- Settles O40: on a full stack the push faults, and otherwise 2NNN pushes `pc + 2` and goes to NNN. -/
theorem callPushesTheNextAddress : Obligations.CallPushesTheNextAddress := by
  intro nnn s
  refine ⟨EncodeMatches.encodedBy_of (EncodeMatches.call nnn) rfl, fun h => ?_, fun h => ?_⟩
  · exact ⟨_, execCall_ok nnn s h, Vector.getElem_set_self h, rfl, zextAddr_toNat nnn, rfl,
      changesOnlyIn_pushed _ s ⟨s.sp.val, h⟩ _ _ _⟩
  · exact ⟨_, execCall_full nnn s h, haltedFrom_enterHalt _ _ s (by decide)⟩

end Sys2Proof.Machine

/-! Loads, additions of a byte and bitwise operations on the registers (43_alu.md, R201 to R206): each writes its
destination and pc. VF is written only as the destination (X = 0xF). -/

namespace Sys2Proof.Machine

open Sys2Proof.Laws

/-- An instruction that writes one register and goes on to the next word leaves its result there, and changes nothing
else. -/
theorem exec_of_setV {i : Instr} {x : Reg} {w : Byte} {s : State} (h : exec i s = .next (s.setV x w).toNext) :
    ∃ t, exec i s = .next t ∧ t.getV x = w ∧ t.pc = s.pc + 2 ∧ t.mem = s.mem ∧ changesOnly [.reg x, .pc] s t :=
  ⟨_, h, State.getV_setV_same x w s, rfl, rfl, changesOnlyIn_setV _ s x w _⟩

/-- The same, of a result that is known bit by bit. -/
theorem exec_of_setV_bits {i : Instr} {x : Reg} {w : Byte} {s : State} {b : Nat → Bool}
    (h : exec i s = .next (s.setV x w).toNext) (hbits : ∀ k, w.getLsbD k = b k) :
    ∃ t, exec i s = .next t ∧ (∀ k < 8, (t.getV x).getLsbD k = b k) ∧
      t.pc = s.pc + 2 ∧ t.mem = s.mem ∧ changesOnly [.reg x, .pc] s t := by
  obtain ⟨t, ht, hresult, hframe⟩ := exec_of_setV h
  exact ⟨t, ht, fun k _ => hresult ▸ hbits k, hframe⟩

/-- Settles O44: each is a write of one register and pc, with NN or `V[Y]` as the result. -/
theorem registerLoadsWriteTheirDestination : Obligations.RegisterLoadsWriteTheirDestination :=
  ⟨fun x nn _ => ⟨EncodeMatches.encodedBy_of (EncodeMatches.ldByte x nn) rfl, exec_of_setV rfl⟩,
    fun x y _ => ⟨EncodeMatches.encodedBy_of (EncodeMatches.ldReg x y) rfl, exec_of_setV rfl⟩⟩

/-- Settles O45: the result is the sum of two bytes as bit vectors, which wraps at 256. -/
theorem addByteWrapsWithoutFlag : Obligations.AddByteWrapsWithoutFlag := by
  intro x nn s
  obtain ⟨t, ht, hsum, hframe⟩ := exec_of_setV (i := .addByte x nn) (s := s) rfl
  exact ⟨EncodeMatches.encodedBy_of (EncodeMatches.addByte x nn) rfl, t, ht, hsum ▸ BitVec.toNat_add _ _, hframe⟩

/-- Settles O46: the operation on the two bytes is the operation on each of their bits. -/
theorem bitwiseOperationsCombineEachBit : Obligations.BitwiseOperationsCombineEachBit :=
  ⟨fun x y _ => ⟨EncodeMatches.encodedBy_of (EncodeMatches.orReg x y) rfl,
      exec_of_setV_bits rfl fun _ => BitVec.getLsbD_or⟩,
    fun x y _ => ⟨EncodeMatches.encodedBy_of (EncodeMatches.andReg x y) rfl,
      exec_of_setV_bits rfl fun _ => BitVec.getLsbD_and⟩,
    fun x y _ => ⟨EncodeMatches.encodedBy_of (EncodeMatches.xorReg x y) rfl,
      exec_of_setV_bits rfl fun _ => BitVec.getLsbD_xor⟩⟩

end Sys2Proof.Machine

/-! The index register and memory (44_index_memory.md, R231, R233 to R236): writes of I, stores from I upward, and loads
of registers. A completed store or load is a sequence of writes, and so is its frame. -/

namespace Sys2Proof.Machine

open Sys2Proof.Laws Sys2Proof.Statements

/-! ### Frames in sequence -/

theorem Part.same_trans {c : Config} {p : Part} {s t u : State} (hst : p.same c s t) (htu : p.same c t u) :
    p.same c s u := by
  cases p <;> exact Eq.trans htu hst

/-- Two updates, one after the other, change only the parts of the second and those of the first. -/
theorem changesOnlyIn_append {c : Config} {ps qs : List Part} {s t u : State} (hst : changesOnlyIn c ps s t)
    (htu : changesOnlyIn c qs t u) : changesOnlyIn c (qs ++ ps) s u := by
  intro p hp
  rw [List.mem_append, not_or] at hp
  exact Part.same_trans (hst p hp.2) (htu p hp.1)

/-- Writing I and pc. -/
theorem changesOnlyIn_setI (c : Config) (s : State) (w q : Word) :
    changesOnlyIn c [.index, .pc] s ((s.setI w).setPc q) := by
  intro p hp
  cases p with
  | index => simp at hp
  | pc => simp at hp
  | _ => rfl

/-- Writing bytes from a base upward. -/
theorem changesOnlyIn_writeBytes (c : Config) (base : Nat) (ws : List Byte) (s : State) :
    changesOnlyIn c (bytesFrom base ws.length) s (s.writeBytes c base ws) := by
  intro p hp
  cases p with
  | byte a => exact State.readMem_writeBytes_other c ws base s (outside_of_not_mem_bytesFrom hp)
  | _ => rfl

/-! ### Writes of I -/

/-- The address of FX29 is exact: it is at most 0x4FB (R233). -/
theorem zextByte_mul_five_toNat (b : Byte) : (zextByte b * 5).toNat = b.toNat * 5 := by
  have hb := b.isLt
  rw [BitVec.toNat_mul, zextByte_toNat]
  exact Nat.mod_eq_of_lt (show b.toNat * 5 < 2 ^ 16 by omega)

/-- After a span inside memory the advance of I is exact: it does not wrap (R235, R236). -/
theorem advanceI_i_toNat {x : Reg} {s : State} (h : s.i.toNat + x.val ≤ 0xFFF) :
    (s.advanceI x).i.toNat = s.i.toNat + x.val + 1 := by
  rw [State.advanceI_i, BitVec.toNat_add, BitVec.toNat_ofNat]
  omega

/-- An instruction that writes I and goes on to the next word leaves its result there, and changes nothing else. -/
theorem exec_of_setI {i : Instr} {w : Word} {n : Nat} {s : State} (h : exec i s = .next (s.setI w).toNext)
    (hw : w.toNat = n) :
    ∃ t, exec i s = .next t ∧ t.i.toNat = n ∧ t.pc = s.pc + 2 ∧ t.mem = s.mem ∧ changesOnly [.index, .pc] s t :=
  ⟨_, h, hw, rfl, rfl, changesOnlyIn_setI _ s w _⟩

/-- Settles O51: each is a write of I and pc, with NNN or `V[X] * 5` as the result. -/
theorem indexLoadsSetI : Obligations.IndexLoadsSetI :=
  ⟨fun nnn _ => ⟨EncodeMatches.encodedBy_of (EncodeMatches.ldI nnn) rfl, exec_of_setI rfl (zextAddr_toNat nnn)⟩,
    fun x _ => ⟨EncodeMatches.encodedBy_of (EncodeMatches.ldFX x) rfl, exec_of_setI rfl (zextByte_mul_five_toNat _)⟩⟩

/-! ### Stores -/

/-- A write from I upward passes the font check of R65 when I lies above the font or the policy is `ALLOW`. -/
theorem not_fontFault_of_above_or_allow {c : Config} {s : State} (h : 0x04F < s.i.toNat ∨ c.fontWritePolicy = .allow) :
    ¬ (s.i.toNat ≤ 0x04F ∧ c.fontWritePolicy = .fault) := by
  rintro ⟨hlow, hfault⟩
  obtain habove | hallow := h
  · omega
  · simp [hfault] at hallow

/-- Written from a base upward, the digits of R234 read back as the numbers they stand for: each fits a byte. -/
theorem readMem_writeBytes_decimalDigits (c : Config) (base : Nat) (b : Byte) (s : State) :
    ((s.writeBytes c base (decimalDigits b)).readMem c base).toNat = b.toNat / 100 ∧
      ((s.writeBytes c base (decimalDigits b)).readMem c (base + 1)).toNat = b.toNat / 10 % 10 ∧
      ((s.writeBytes c base (decimalDigits b)).readMem c (base + 2)).toNat = b.toNat % 10 := by
  have hread := State.readMem_writeBytes_same c (decimalDigits b) base s
  have hhundreds := hread 0 (by simp [decimalDigits])
  have htens := hread 1 (by simp [decimalDigits])
  have hones := hread 2 (by simp [decimalDigits])
  have hb := b.isLt
  rw [Nat.add_zero] at hhundreds
  rw [hhundreds, htens, hones]
  simp only [decimalDigits, List.getElem_cons_zero, List.getElem_cons_succ, BitVec.toNat_ofNat]
  omega

/-- FX33 with the parameters as an argument meets R234. -/
theorem storeDecimal_storesDecimal (c : Config) (x : Reg) (s : State) : storesDecimal c (storeDecimal c x) x s := by
  refine ⟨fun hrange hfont => ?_, fun hrange => ?_, fun hlow hfault => ?_⟩
  · obtain ⟨hhundreds, htens, hones⟩ := readMem_writeBytes_decimalDigits c s.i.toNat (s.getV x) s
    exact ⟨_, storeDecimal_ok c x s (by omega) (not_fontFault_of_above_or_allow hfont), hhundreds, htens, hones, rfl,
      changesOnlyIn_append (changesOnlyIn_writeBytes c s.i.toNat (decimalDigits (s.getV x)) s)
        (changesOnlyIn_setPc c _ _)⟩
  · exact ⟨_, storeDecimal_range c x s (by omega), haltedFrom_enterHalt c _ s (by decide)⟩
  · exact ⟨_, storeDecimal_font c x s hlow hfault, haltedFrom_enterHalt c _ s (by decide)⟩

/-- Settles O53: both `exec` and `execWith` run FX33 as `storeDecimal`. -/
theorem ldBStoresDecimalDigits : Obligations.LdBStoresDecimalDigits :=
  ⟨fun x => EncodeMatches.encodedBy_of (EncodeMatches.ldBX x) rfl, storeDecimal_storesDecimal,
    storeDecimal_storesDecimal Config.hardware⟩

/-- The byte at `I + k` after V[0] to V[X] are written from I is V[k]. -/
theorem readMem_writeBytes_regsUpTo (c : Config) {x k : Reg} (s : State) (hk : k.val ≤ x.val) :
    (s.writeBytes c s.i.toNat ((regsUpTo x).map s.getV)).readMem c (s.i.toNat + k.val) = s.getV k := by
  have hlen : k.val < (regsUpTo x).length := by rw [regsUpTo_length]; omega
  have hreg : (regsUpTo x)[k.val] = k := Fin.ext (regsUpTo_getElem x k.val hlen)
  rw [State.readMem_writeBytes_same c _ _ s k.val (by rwa [List.length_map]), List.getElem_map, hreg]

/-- FX55 with the parameters as an argument meets R235. -/
theorem storeRegs_storesRegisters (c : Config) (x : Reg) (s : State) : storesRegisters c (storeRegs c x) x s := by
  refine ⟨fun hrange hfont => ?_, fun hrange => ?_, fun hlow hfault => ?_⟩
  · have hframe := changesOnlyIn_writeBytes c s.i.toNat ((regsUpTo x).map s.getV) s
    rw [List.length_map, regsUpTo_length] at hframe
    exact ⟨_, storeRegs_ok c x s (by omega) (not_fontFault_of_above_or_allow hfont),
      fun k hk => readMem_writeBytes_regsUpTo c s hk, advanceI_i_toNat hrange, rfl,
      changesOnlyIn_append hframe (changesOnlyIn_setI c _ _ _)⟩
  · exact ⟨_, storeRegs_range c x s (by omega), haltedFrom_enterHalt c _ s (by decide)⟩
  · exact ⟨_, storeRegs_font c x s hlow hfault, haltedFrom_enterHalt c _ s (by decide)⟩

/-- Settles O54: both `exec` and `execWith` run FX55 as `storeRegs`. -/
theorem ldMemStoresRegisters : Obligations.LdMemStoresRegisters :=
  ⟨fun x => EncodeMatches.encodedBy_of (EncodeMatches.ldMemX x) rfl, storeRegs_storesRegisters,
    storeRegs_storesRegisters Config.hardware⟩

/-! ### Loads -/

/-- Loading the registers listed leaves a register file in which each of them holds its byte, and changes no other
part. -/
theorem loadFold_loads (c : Config) (f : Reg → Byte) (rs : List Reg) (s : State) :
    ∃ v, rs.foldl (fun t r => State.setV r (f r) t) s = { s with v := v } ∧
      (∀ r ∈ rs, ({ s with v := v } : State).getV r = f r) ∧ changesOnlyIn c (rs.map .reg) s { s with v := v } := by
  obtain ⟨v, hv⟩ := loadFold_frame f rs s
  have hregs := getV_loadFold f rs s
  rw [hv] at hregs
  refine ⟨v, hv, fun r hr => (hregs r).trans (if_pos hr), fun p hp => ?_⟩
  cases p with
  | reg r => exact (hregs r).trans (if_neg fun hr => hp (List.mem_map_of_mem hr))
  | _ => rfl

/-- Settles O55: FX65 loads V[0] to V[X], then writes I and pc; a span out of range loads nothing. -/
theorem ldXMemLoadsRegisters : Obligations.LdXMemLoadsRegisters := by
  intro x s
  refine ⟨EncodeMatches.encodedBy_of (EncodeMatches.ldXMem x) rfl, fun hrange => ?_, fun hrange => ?_⟩
  · have hok := loadRegs_ok Config.hardware x s (by omega)
    obtain ⟨v, hv, hloaded, hframe⟩ := loadFold_loads Config.hardware
      (fun r => s.readMem Config.hardware (memBase s + r.val)) (regsUpTo x) s
    rw [hv] at hok
    exact ⟨_, hok, fun k hk => hloaded k (mem_regsUpTo.2 hk), advanceI_i_toNat (s := { s with v := v }) hrange,
      rfl, rfl, changesOnlyIn_append hframe (changesOnlyIn_setI _ _ _ _)⟩
  · exact ⟨_, loadRegs_range _ x s (by omega), haltedFrom_enterHalt _ _ s (by decide)⟩

end Sys2Proof.Machine

/-! The timer accesses (45_timer_input.md, R252, R254 and R255): FX07 is a write of one register and pc, FX15 and FX18
each a write of one timer and pc. -/

namespace Sys2Proof.Machine

open Sys2Proof.Laws

/-- Writing DT and pc. -/
theorem changesOnlyIn_setDt (c : Config) (s : State) (w : Byte) (q : Word) :
    changesOnlyIn c [.delayTimer, .pc] s (State.setPc q { s with dt := w }) := by
  intro p hp
  cases p with
  | delayTimer => simp at hp
  | pc => simp at hp
  | _ => rfl

/-- Writing ST and pc. -/
theorem changesOnlyIn_setSt (c : Config) (s : State) (w : Byte) (q : Word) :
    changesOnlyIn c [.soundTimer, .pc] s (State.setPc q { s with st := w }) := by
  intro p hp
  cases p with
  | soundTimer => simp at hp
  | pc => simp at hp
  | _ => rfl

/-- `sound_active` is ST other than 0, as a number (R313). -/
theorem soundActive_iff (s : State) : s.soundActive = true ↔ s.st.toNat ≠ 0 :=
  bne_iff_ne.trans BitVec.toNat_ne_iff_ne.symm

/-- Settles O58: each writes one destination and pc, and `sound_active` after FX18 is read off the ST it wrote. -/
theorem timerAccessesReadAndWriteTimers : Obligations.TimerAccessesReadAndWriteTimers := by
  intro x s
  refine ⟨EncodeMatches.encodedBy_of (EncodeMatches.ldXDt x) rfl,
    EncodeMatches.encodedBy_of (EncodeMatches.ldDtX x) rfl,
    EncodeMatches.encodedBy_of (EncodeMatches.ldStX x) rfl, ?_, ?_, ?_⟩
  · exact exec_of_setV rfl
  · exact ⟨_, rfl, rfl, rfl, rfl, changesOnlyIn_setDt _ s _ _⟩
  · exact ⟨_, rfl, rfl, soundActive_iff _, rfl, rfl, changesOnlyIn_setSt _ s _ _⟩

end Sys2Proof.Machine

/-! The LOAD event (60_exceptions.md, R307): what it answers to an image that fits and to one that is too long. -/

namespace Sys2Proof.Machine

/-- The step whose event is LOAD. -/
theorem step_load {s : State} {b : List Byte} (he : nextEvent s = .load b) :
    step s = .next (loadEvent Config.hardware b s.beginEvent) := by
  simp only [step, advance, he, applyEvent]

/-- A LOAD longer than `MAX_PROG_LEN` writes its result code only. -/
theorem loadEvent_tooLarge (c : Config) {b : List Byte} (s : State) (h : b.length > maxProgLen) :
    loadEvent c b s = { s with loadResult := some .tooLarge } :=
  if_pos h

/-- A LOAD of at most `MAX_PROG_LEN` bytes writes them from `PROG_BASE` upward, and its result code. -/
theorem loadEvent_ok (c : Config) {b : List Byte} (s : State) (h : b.length ≤ maxProgLen) :
    loadEvent c b s = { s.writeBytes c progBase b with loadResult := some .ok } :=
  if_neg (Nat.not_lt.2 h)

/-- Writing the LOAD result. -/
theorem changesOnlyIn_loadResult (c : Config) (s : State) (r : Option LoadResult) :
    changesOnlyIn c [.loadResult] s { s with loadResult := r } := by
  intro p hp
  cases p with
  | loadResult => simp at hp
  | _ => rfl

/-- Settles O23: past 0xE00 bytes a LOAD is refused with its result code alone; up to there it writes bytes of memory,
which leaves MODE and the fault record. -/
theorem oversizedLoadChangesNothing : Obligations.OversizedLoadChangesNothing := by
  intro s b rest hs
  have hstep := step_load (nextEvent_cons hs)
  constructor
  · intro hlong
    rw [loadEvent_tooLarge _ _ hlong] at hstep
    exact ⟨_, hstep, rfl, rfl, changesOnlyIn_loadResult _ _ _⟩
  · intro hfits
    rw [loadEvent_ok _ _ hfits] at hstep
    exact ⟨_, hstep, rfl, rfl, rfl⟩

end Sys2Proof.Machine

/-! Encoding (30_encoding.md): a word is put together again from its fields, so the decoder and the encoder undo each
other; the decoder, the table of R104 and the table of R105 read the same fields. -/

namespace Sys2Proof

/-! ### Decoding an encoded instruction -/

/-- The decoder reads the encoder's formats back, form by form (R104). -/
theorem decodeWord_encode {i : Instr} (h : i.wf = true) : decodeWord (encode i) = .ok i := by
  cases i with
  | cls | ret => rfl
  | seReg x y | sneReg x y => simp [encode, decodeWord, decodeSkipReg]
  | ldReg x y | orReg x y | andReg x y | xorReg x y | addReg x y | sub x y | shr x y | subn x y | shl x y =>
    simp [encode, decodeWord, decodeAlu]
  | drw x y n =>
    have hn : n < 16 := by simpa [Instr.wf] using h
    simp [encode, decodeWord, Nat.mod_eq_of_lt hn]
  | skp x | sknp x => simp [encode, decodeWord, decodeKeySkip]
  | ldXDt x | ldXK x | ldDtX x | ldStX x | addIX x | ldFX x | ldBX x | ldMemX x | ldXMem x =>
    simp [encode, decodeWord, decodeMisc]
  | _ => simp [encode, decodeWord]

/-- The decoder of byte lists takes the two bytes of a word and leaves the rest (R100). -/
theorem decode_bytesOfWord {op : Word} {i : Instr} (h : decodeWord op = .ok i) (rest : List Byte) :
    decode (bytesOfWord op ++ rest) = .ok (i, rest) := by
  simp [bytesOfWord, decode, h]

/-- Settles O2: the two bytes are the encoded word again, and the decoder reads its fields back form by form. -/
theorem decodeOfEncodeIsIdentity : Obligations.DecodeOfEncodeIsIdentity :=
  fun _ rest hwf => decode_bytesOfWord (decodeWord_encode hwf) rest

/-! ### Encoding a decoded word -/

theorem opFamily_eq (op : Word) : opFamily op = op.toNat / 4096 := by
  have := op.isLt
  rw [opFamily, BitVec.extractLsb'_toNat, Nat.shiftRight_eq_div_pow]
  omega

theorem opN_eq (op : Word) : opN op = op.toNat % 16 := by
  simp [opN]

theorem opNN_toNat (op : Word) : (opNN op).toNat = op.toNat % 256 := by
  simp [opNN]

theorem opNNN_toNat (op : Word) : (opNNN op).toNat = op.toNat % 4096 := by
  simp [opNNN]

theorem opX_val (op : Word) : (opX op).val = op.toNat / 256 % 16 := by
  simp [opX, Nat.shiftRight_eq_div_pow]

theorem opY_val (op : Word) : (opY op).val = op.toNat / 16 % 16 := by
  simp [opY, Nat.shiftRight_eq_div_pow]

theorem formatA_toNat (f : BitVec 4) (nnn : BitVec 12) : (formatA f nnn).toNat = f.toNat * 4096 + nnn.toNat := by
  rw [formatA, BitVec.toNat_append, ← Nat.shiftLeft_add_eq_or_of_lt nnn.isLt, Nat.shiftLeft_eq]

theorem formatXB_toNat (f : BitVec 4) (x : Reg) (nn : Byte) :
    (formatXB f x nn).toNat = f.toNat * 4096 + (x.val * 256 + nn.toNat) := by
  change (formatA f (regNibble x ++ nn)).toNat = _
  rw [formatA_toNat, BitVec.toNat_append, ← Nat.shiftLeft_add_eq_or_of_lt nn.isLt, Nat.shiftLeft_eq, regNibble_toNat]

theorem formatXYN_toNat (f : BitVec 4) (x y : Reg) (n : BitVec 4) :
    (formatXYN f x y n).toNat = f.toNat * 4096 + (x.val * 256 + (y.val * 16 + n.toNat)) := by
  change (formatXB f x (regNibble y ++ n)).toNat = _
  rw [formatXB_toNat, BitVec.toNat_append, ← Nat.shiftLeft_add_eq_or_of_lt n.isLt, Nat.shiftLeft_eq, regNibble_toNat]

/-- A word in format A is its family and its address field (R102). -/
theorem formatA_fields {op : Word} {f : BitVec 4} (hf : opFamily op = f.toNat) : formatA f (opNNN op) = op := by
  rw [opFamily_eq] at hf
  refine BitVec.eq_of_toNat_eq ?_
  rw [formatA_toNat, opNNN_toNat]
  omega

/-- A word in format XB or Xff is its family, its X field and its low byte (R102). -/
theorem formatXB_fields {op : Word} {f : BitVec 4} {nn : Byte} (hf : opFamily op = f.toNat)
    (hnn : (opNN op).toNat = nn.toNat) : formatXB f (opX op) nn = op := by
  rw [opFamily_eq] at hf
  rw [opNN_toNat] at hnn
  refine BitVec.eq_of_toNat_eq ?_
  rw [formatXB_toNat, opX_val]
  omega

/-- A word in format XYf or XYN is its family, its X and Y fields and its low nibble (R102). -/
theorem formatXYN_fields {op : Word} {f n : BitVec 4} (hf : opFamily op = f.toNat) (hn : opN op = n.toNat) :
    formatXYN f (opX op) (opY op) n = op := by
  rw [opFamily_eq] at hf
  rw [opN_eq] at hn
  refine BitVec.eq_of_toNat_eq ?_
  rw [formatXYN_toNat, opX_val, opY_val]
  omega

theorem opN_lt (op : Word) : opN op < 16 := by
  rw [opN_eq]
  omega

/-- Family 8: the operation that the function nibble selects encodes to the word. -/
theorem encode_of_decodeAlu {op : Word} {i : Instr} (hf : opFamily op = 8) (h : decodeAlu op = .ok i) :
    encode i = op ∧ i.wf = true := by
  unfold decodeAlu at h
  split at h
  case h_10 => cases h
  all_goals
    rename_i hn
    cases h
    exact ⟨formatXYN_fields hf hn, rfl⟩

/-- Family E: the key skip that the low byte selects encodes to the word. -/
theorem encode_of_decodeKeySkip {op : Word} {i : Instr} (hf : opFamily op = 0xE) (h : decodeKeySkip op = .ok i) :
    encode i = op ∧ i.wf = true := by
  unfold decodeKeySkip at h
  split at h
  case h_3 => cases h
  all_goals
    rename_i hnn
    cases h
    exact ⟨formatXB_fields hf hnn, rfl⟩

/-- Family F: the operation that the low byte selects encodes to the word. -/
theorem encode_of_decodeMisc {op : Word} {i : Instr} (hf : opFamily op = 0xF) (h : decodeMisc op = .ok i) :
    encode i = op ∧ i.wf = true := by
  unfold decodeMisc at h
  split at h
  case h_10 => cases h
  all_goals
    rename_i hnn
    cases h
    exact ⟨formatXB_fields hf hnn, rfl⟩

/-- A word that decodes is the encoding of its instruction, family by family (R104, D9). -/
theorem encode_of_decodeWord {op : Word} {i : Instr} (h : decodeWord op = .ok i) : encode i = op ∧ i.wf = true := by
  unfold decodeWord at h
  split at h
  case h_1 hf =>
    split at h
    · cases h; exact ⟨Eq.symm ‹_›, rfl⟩
    · split at h
      · cases h; exact ⟨Eq.symm ‹_›, rfl⟩
      · cases h
  case h_6 hf | h_10 hf =>
    unfold decodeSkipReg at h
    split at h
    · rename_i hn
      cases h; exact ⟨formatXYN_fields hf hn, rfl⟩
    · cases h
  case h_9 hf => exact encode_of_decodeAlu hf h
  case h_14 hf =>
    cases h
    have hn := opN_lt op
    exact ⟨formatXYN_fields hf (by simp [Nat.mod_eq_of_lt hn]), by simpa [Instr.wf] using hn⟩
  case h_15 hf => exact encode_of_decodeKeySkip hf h
  case h_16 =>
    have hlt : opFamily op < 16 := (op.extractLsb' 12 4).isLt
    exact encode_of_decodeMisc (by simp only [imp_false] at *; omega) h
  case h_2 hf | h_3 hf | h_11 hf | h_12 hf => cases h; exact ⟨formatA_fields hf, rfl⟩
  all_goals
    rename_i hf
    cases h
    exact ⟨formatXB_fields hf rfl, rfl⟩

/-- Settles O3: in each family the fields that the decoder read put the word together again. -/
theorem encodeOfDecodeIsIdentity : Obligations.EncodeOfDecodeIsIdentity := fun _ _ h => encode_of_decodeWord h

/-! ### The unrecognized words (R105) -/

/-- Family 0: all words but two are unrecognized (R106, D8). -/
theorem decodeWord_error_iff_of_family0 {op : Word} (hf : opFamily op = 0) :
    (∃ why, decodeWord op = .error why) ↔ op ≠ 0x00E0 ∧ op ≠ 0x00EE := by
  simp only [decodeWord, hf]
  split
  · simp_all
  · split <;> simp_all

/-- Families 5 and 9: a function nibble other than 0 is unrecognized. -/
theorem decodeSkipReg_error_iff (op : Word) (i : Reg → Reg → Instr) (u : Unrecognized) :
    (∃ why, decodeSkipReg op i u = .error why) ↔ opN op ≠ 0 := by
  unfold decodeSkipReg
  split <;> simp_all

/-- Family 8: seven function nibbles are unrecognized. -/
theorem decodeAlu_error_iff (op : Word) :
    (∃ why, decodeAlu op = .error why) ↔ opN op ∈ [0x8, 0x9, 0xA, 0xB, 0xC, 0xD, 0xF] := by
  have hlt := opN_lt op
  unfold decodeAlu
  split
  case h_10 =>
    refine iff_of_true ⟨_, rfl⟩ ?_
    simp only [imp_false, List.mem_cons, List.not_mem_nil, or_false] at *
    omega
  all_goals
    rename_i hn
    simp [hn]

/-- Family E: all function bytes but two are unrecognized. -/
theorem decodeKeySkip_error_iff (op : Word) :
    (∃ why, decodeKeySkip op = .error why) ↔ (opNN op).toNat ∉ [0x9E, 0xA1] := by
  unfold decodeKeySkip
  split <;> simp_all

/-- Family F: all function bytes but nine are unrecognized. -/
theorem decodeMisc_error_iff (op : Word) :
    (∃ why, decodeMisc op = .error why) ↔
      (opNN op).toNat ∉ [0x07, 0x0A, 0x15, 0x18, 0x1E, 0x29, 0x33, 0x55, 0x65] := by
  unfold decodeMisc
  split <;> simp_all

/-- The unrecognized words by the fields that the decoders compare, family by family. -/
theorem decodeWord_error_iff (op : Word) :
    (∃ why, decodeWord op = .error why) ↔
      (opFamily op = 0 ∧ op ≠ 0x00E0 ∧ op ≠ 0x00EE) ∨
      (opFamily op = 5 ∧ opN op ≠ 0) ∨
      (opFamily op = 8 ∧ opN op ∈ [0x8, 0x9, 0xA, 0xB, 0xC, 0xD, 0xF]) ∨
      (opFamily op = 9 ∧ opN op ≠ 0) ∨
      (opFamily op = 0xE ∧ (opNN op).toNat ∉ [0x9E, 0xA1]) ∨
      (opFamily op = 0xF ∧ (opNN op).toNat ∉ [0x07, 0x0A, 0x15, 0x18, 0x1E, 0x29, 0x33, 0x55, 0x65]) := by
  have hlt : opFamily op < 16 := (op.extractLsb' 12 4).isLt
  have h0 := decodeWord_error_iff_of_family0 (op := op)
  rw [← decodeAlu_error_iff, ← decodeKeySkip_error_iff, ← decodeMisc_error_iff]
  unfold decodeWord at h0 ⊢
  split
  case h_1 hf => simpa [hf] using h0
  case h_6 hf | h_10 hf => simp [hf, decodeSkipReg_error_iff]
  case h_9 hf | h_15 hf => simp [hf]
  case h_16 =>
    have hf : opFamily op = 15 := by simp only [imp_false] at *; omega
    simp [hf]
  all_goals
    rename_i hf
    simp [hf]

/-- Settles O5: the fields are the digits of the word as a number. -/
theorem unrecognizedWordsAreThoseListed : Obligations.UnrecognizedWordsAreThoseListed := by
  intro op
  rw [← opFamily_eq, ← opN_eq, ← opNN_toNat]
  exact decodeWord_error_iff op

/-! ### The table of R104 -/

/-- A word that a mask takes to a pattern has the pattern's bits in every field that the mask covers. -/
theorem field_of_and {op mask pattern : Word} {start len : Nat} (h : op &&& mask = pattern)
    (hm : mask.extractLsb' start len = BitVec.allOnes len) :
    op.extractLsb' start len = pattern.extractLsb' start len := by
  rw [← h, BitVec.extractLsb'_and, hm, BitVec.and_allOnes]

/-- A word that the mask of formats A, XB and XYN takes to a pattern has the pattern's family. -/
theorem family_of_and_F000 {op pattern : Word} (h : op &&& 0xF000 = pattern) : opFamily op = pattern.toNat / 4096 := by
  rw [← opFamily_eq]
  exact congrArg BitVec.toNat (field_of_and h (by decide))

/-- A word that the mask of format XYf takes to a pattern has the pattern's family and function nibble. -/
theorem fields_of_and_F00F {op pattern : Word} (h : op &&& 0xF00F = pattern) :
    opFamily op = pattern.toNat / 4096 ∧ opN op = pattern.toNat % 16 := by
  rw [← opFamily_eq, ← opN_eq]
  exact ⟨congrArg BitVec.toNat (field_of_and h (by decide)), congrArg BitVec.toNat (field_of_and h (by decide))⟩

/-- A word that the mask of format Xff takes to a pattern has the pattern's family and function byte. -/
theorem fields_of_and_F0FF {op pattern : Word} (h : op &&& 0xF0FF = pattern) :
    opFamily op = pattern.toNat / 4096 ∧ (opNN op).toNat = pattern.toNat % 256 := by
  rw [← opFamily_eq, ← opNN_toNat]
  exact ⟨congrArg BitVec.toNat (field_of_and h (by decide)), congrArg BitVec.toNat (field_of_and h (by decide))⟩

/-- An unrecognized word is selected by no row: the fields that put it outside the decoder are fixed by the row. -/
theorem not_selects_of_error {j : Instr} {op : Word} {why : Unrecognized} (h : decodeWord op = .error why) :
    j.row.selects op ≠ true := by
  have herror := (decodeWord_error_iff op).1 ⟨why, h⟩
  intro hsel
  rw [Laws.EncodeMatches.selects_iff] at hsel
  cases j with
  | cls | ret =>
    have hop : op = _ := BitVec.and_allOnes.symm.trans hsel
    subst hop
    cases h
  | seReg x y | sneReg x y | ldReg x y | orReg x y | andReg x y | xorReg x y | addReg x y | sub x y | shr x y
  | subn x y | shl x y =>
    obtain ⟨hf, hn⟩ := fields_of_and_F00F hsel
    simp [hf, hn, Instr.row] at herror
  | skp x | sknp x | ldXDt x | ldXK x | ldDtX x | ldStX x | addIX x | ldFX x | ldBX x | ldMemX x | ldXMem x =>
    obtain ⟨hf, hnn⟩ := fields_of_and_F0FF hsel
    simp [hf, hnn, Instr.row] at herror
  | _ =>
    have hf := family_of_and_F000 hsel
    simp [hf, Instr.row] at herror

/-- Every encoded instruction is selected by its own row. -/
theorem row_selects_encode : ∀ i : Instr, Laws.EncodeMatches.Statement i
  | .cls => Laws.EncodeMatches.cls
  | .ret => Laws.EncodeMatches.ret
  | .jp nnn => Laws.EncodeMatches.jp nnn
  | .call nnn => Laws.EncodeMatches.call nnn
  | .seByte x nn => Laws.EncodeMatches.seByte x nn
  | .sneByte x nn => Laws.EncodeMatches.sneByte x nn
  | .seReg x y => Laws.EncodeMatches.seReg x y
  | .ldByte x nn => Laws.EncodeMatches.ldByte x nn
  | .addByte x nn => Laws.EncodeMatches.addByte x nn
  | .ldReg x y => Laws.EncodeMatches.ldReg x y
  | .orReg x y => Laws.EncodeMatches.orReg x y
  | .andReg x y => Laws.EncodeMatches.andReg x y
  | .xorReg x y => Laws.EncodeMatches.xorReg x y
  | .addReg x y => Laws.EncodeMatches.addReg x y
  | .sub x y => Laws.EncodeMatches.sub x y
  | .shr x y => Laws.EncodeMatches.shr x y
  | .subn x y => Laws.EncodeMatches.subn x y
  | .shl x y => Laws.EncodeMatches.shl x y
  | .sneReg x y => Laws.EncodeMatches.sneReg x y
  | .ldI nnn => Laws.EncodeMatches.ldI nnn
  | .jpV0 nnn => Laws.EncodeMatches.jpV0 nnn
  | .rnd x nn => Laws.EncodeMatches.rnd x nn
  | .drw x y n => Laws.EncodeMatches.drw x y n
  | .skp x => Laws.EncodeMatches.skp x
  | .sknp x => Laws.EncodeMatches.sknp x
  | .ldXDt x => Laws.EncodeMatches.ldXDt x
  | .ldXK x => Laws.EncodeMatches.ldXK x
  | .ldDtX x => Laws.EncodeMatches.ldDtX x
  | .ldStX x => Laws.EncodeMatches.ldStX x
  | .addIX x => Laws.EncodeMatches.addIX x
  | .ldFX x => Laws.EncodeMatches.ldFX x
  | .ldBX x => Laws.EncodeMatches.ldBX x
  | .ldMemX x => Laws.EncodeMatches.ldMemX x
  | .ldXMem x => Laws.EncodeMatches.ldXMem x

/-- The row of every instruction is in the table, whatever its operands. -/
theorem row_mem_opcodeTable (i : Instr) : i.row ∈ opcodeTable := by
  cases i <;> simp [opcodeTable, oneOfEachForm, Instr.row]

/-- Two rows of the table whose fixed bits agree wherever both fix one are the same row. -/
theorem opcodeTable_exclusive :
    ∀ r ∈ opcodeTable, ∀ q ∈ opcodeTable, r.pattern &&& q.mask = q.pattern &&& r.mask → r = q := by
  decide

/-- No word is selected by two rows of the table. -/
theorem opcodeRow_unique {r q : OpcodeRow} {op : Word} (hr : r ∈ opcodeTable) (hq : q ∈ opcodeTable)
    (hrop : r.selects op = true) (hqop : q.selects op = true) : r = q := by
  rw [Laws.EncodeMatches.selects_iff] at hrop hqop
  refine opcodeTable_exclusive r hr q hq ?_
  rw [← hrop, ← hqop, BitVec.and_assoc, BitVec.and_assoc, BitVec.and_comm r.mask]

/-- Settles O4: a decoded word is the encoding of its instruction, whose row selects it; an unrecognized word is selected by
no row; and the rows exclude each other. -/
theorem decoderAgreesWithMaskTable : Obligations.DecoderAgreesWithMaskTable := by
  intro op
  have hrow : ∀ i, decodeWord op = .ok i → i.row ∈ opcodeTable ∧ i.row.selects op = true := by
    intro i h
    obtain ⟨rfl, -⟩ := encode_of_decodeWord h
    exact ⟨row_mem_opcodeTable i, row_selects_encode i⟩
  refine ⟨⟨?_, ?_⟩, hrow, fun r hr q hq => opcodeRow_unique hr hq⟩
  · rintro ⟨i, h⟩
    exact ⟨i.row, hrow i h⟩
  · rintro ⟨r, hr, hsel⟩
    obtain ⟨j, -, rfl⟩ := List.mem_map.1 hr
    cases h : decodeWord op with
    | ok i => exact ⟨i, rfl⟩
    | error why => exact absurd hsel (not_selects_of_error h)

/-- Settles O1: the words as literals, run through the decoder. -/
theorem sampleWordsDecodeAsTabled : Obligations.SampleWordsDecodeAsTabled := by
  unfold Obligations.SampleWordsDecodeAsTabled
  decide

end Sys2Proof

/-! The engine (40_engine.md): the machine of this hardware, what it answers, and what a STEP does in each of its cases. -/

namespace Sys2Proof.Machine

open Sys2Proof.Statements

/-! ### The machine of this hardware -/

/-- Every instruction means on this hardware what it means at this hardware's parameters (R45). -/
theorem exec_eq_execWith (i : Instr) (s : State) : exec i s = execWith Config.hardware i s := by
  cases i <;> rfl

theorem step_eq_stepWith (s : State) : step s = stepWith Config.hardware s := by
  rw [step, stepWith, show exec = execWith Config.hardware from funext fun i => funext fun s => exec_eq_execWith i s]

/-- Settles O13: arm by arm the two meanings are the same term, and the values are those of `Config.hardware`. -/
theorem hardwareIsTheParametricMachineAtItsValues : Obligations.HardwareIsTheParametricMachineAtItsValues :=
  ⟨exec_eq_execWith, step_eq_stepWith, rfl, rfl, rfl, rfl, by decide⟩

/-! ### Every step answers a next state -/

theorem exec_answers (i : Instr) (s : State) : ∃ t, exec i s = .next t := by
  cases i with
  | ret | call nnn | drw x y n | ldBX x | ldMemX x | ldXMem x => exact conclude_answers _ _ _
  | _ => exact ⟨_, rfl⟩

theorem unknownOpcode_answers (c : Config) (op : Word) (s : State) : ∃ t, unknownOpcode c op s = .next t := by
  cases h : c.unknownOpcodePolicy with
  | fault => exact ⟨_, by rw [unknownOpcode, h]⟩
  | nop => exact ⟨_, by rw [unknownOpcode, h]⟩

/-- The step whose event is KEY_DOWN. -/
theorem step_keyDown {s : State} {k : Fin 16} (he : nextEvent s = .keyDown k) :
    step s = .next (keyDown k s.beginEvent) := by
  simp only [step, advance, he, applyEvent]

/-- The step whose event is KEY_UP. -/
theorem step_keyUp {s : State} {k : Fin 16} (he : nextEvent s = .keyUp k) : step s = .next (keyUp k s.beginEvent) := by
  simp only [step, advance, he, applyEvent]

/-- The step whose event is RESET. -/
theorem step_reset {s : State} (he : nextEvent s = .reset) : step s = .next (resetEvent s.beginEvent) := by
  simp only [step, advance, he, applyEvent]

/-- The STEP event answers a next state: it runs an instruction, halts, skips an unrecognized word or does nothing. -/
theorem advance_step_answers {s : State} (he : nextEvent s = .step) : ∃ t, step s = .next t := by
  by_cases hm : s.mode = .running
  · by_cases hp : s.pc.toNat + 1 > 0xFFF
    · exact ⟨_, advance_fetchRange he hm hp⟩
    · rw [step, advance_running he hm (Nat.not_lt.1 hp)]
      cases decodeWord (wordAtPc Config.hardware s) with
      | ok i => exact exec_answers i _
      | error why => exact unknownOpcode_answers _ _ _
  · exact ⟨_, advance_notRunning he hm⟩

/-- Settles O12: a fault of the ISA is a next state, and no arm of `exec` refuses. -/
theorem everyStepAnswersANextState : Obligations.EveryStepAnswersANextState := by
  refine ⟨exec_answers, fun s => ?_⟩
  cases he : nextEvent s with
  | step => exact advance_step_answers he
  | timerTick => exact ⟨_, step_timerTick he⟩
  | keyDown k => exact ⟨_, step_keyDown he⟩
  | keyUp k => exact ⟨_, step_keyUp he⟩
  | reset => exact ⟨_, step_reset he⟩
  | load b => exact ⟨_, step_load he⟩

/-! ### A STEP in `RUNNING` -/

/-- The host's next event is a STEP, in `RUNNING`, and the word it fetches decodes to `i`. -/
def Executes (s : State) (i : Instr) : Prop :=
  nextEvent s = .step ∧ s.mode = .running ∧ s.pc.toNat + 1 ≤ 0xFFF ∧ decodeWord (wordAtPc Config.hardware s) = .ok i

theorem runsOne_iff (s : State) (p : Instr → Prop) : runsOne s p ↔ ∃ i, Executes s i ∧ p i := by
  constructor
  · rintro ⟨he, hm, hp, i, hd, hi⟩
    exact ⟨i, ⟨he, hm, hp, hd⟩, hi⟩
  · rintro ⟨i, ⟨he, hm, hp, hd⟩, hi⟩
    exact ⟨he, hm, hp, i, hd, hi⟩

/-- A STEP that executes `i` is the meaning of `i` at the state as the event finds it (R130). -/
theorem step_of_executes {s : State} {i : Instr} (h : Executes s i) : step s = exec i s.beginEvent := by
  obtain ⟨he, hm, hp, hd⟩ := h
  rw [step, advance_running he hm hp, hd]

/-- Settles O6: the instruction the STEP executes runs at the state as the event finds it. -/
theorem stepRunsTheDecodedInstruction : Obligations.StepRunsTheDecodedInstruction :=
  fun _ _ he hm hp hd => step_of_executes ⟨he, hm, hp, hd⟩

/-- The entry into `HALTED` writes `MODE` and the fault record (R302). -/
theorem changesOnlyIn_enterHalt (c : Config) (k : FaultCause) (op : Word) (s : State) :
    changesOnlyIn c [.mode, .faultRecord] s (s.enterHalt k op) := by
  intro p hp
  cases p with
  | mode => simp at hp
  | faultRecord => simp at hp
  | _ => rfl

/-- Settles O7: the STEP enters `HALTED` with the cause that comes without an opcode. -/
theorem fetchOutOfRangeHalts : Obligations.FetchOutOfRangeHalts :=
  fun _ he hm hp => ⟨_, advance_fetchRange he hm hp, rfl, rfl, changesOnlyIn_enterHalt _ _ _ _⟩

/-- A STEP on an unrecognized word is the policy's answer to it (R135). -/
theorem advance_of_unrecognized {c : Config} {ex : Instr → State → Outcome} {s : State} {why : Unrecognized}
    (he : nextEvent s = .step) (hm : s.mode = .running) (hp : s.pc.toNat + 1 ≤ 0xFFF)
    (hd : decodeWord (wordAtPc c s) = .error why) :
    advance c ex s = unknownOpcode c (wordAtPc c s) s.beginEvent := by
  rw [advance_running he hm hp, hd]

theorem unknownOpcode_fault {c : Config} (hc : c.unknownOpcodePolicy = .fault) (op : Word) (s : State) :
    unknownOpcode c op s = .next (s.enterHalt .unknownOpcode op) := by
  rw [unknownOpcode, hc]

theorem unknownOpcode_nop {c : Config} (hc : c.unknownOpcodePolicy = .nop) (op : Word) (s : State) :
    unknownOpcode c op s = .next s.toNext := by
  rw [unknownOpcode, hc]

/-- Settles O8: `FAULT` enters `HALTED` with the fetched word, `NOP` writes pc; this hardware takes `FAULT`. -/
theorem unknownOpcodeFollowsPolicy : Obligations.UnknownOpcodeFollowsPolicy := by
  have hfault : ∀ (c : Config) (ex : Instr → State → Outcome) (s : State) (why : Unrecognized),
      nextEvent s = .step → s.mode = .running → s.pc.toNat + 1 ≤ 0xFFF → decodeWord (wordAtPc c s) = .error why →
      c.unknownOpcodePolicy = .fault → ∃ t, advance c ex s = .next t ∧
        haltedFrom c (fatalRecord .unknownOpcode (wordAtPc c s) s.pc) s.beginEvent t := by
    intro c ex s why he hm hp hd hc
    rw [advance_of_unrecognized he hm hp hd, unknownOpcode_fault hc]
    exact ⟨_, rfl, haltedFrom_enterHalt c _ s.beginEvent (by decide)⟩
  refine ⟨fun c s why he hm hp hd => ⟨hfault c _ s why he hm hp hd, fun hc => ?_⟩,
    fun s why he hm hp hd => hfault _ _ s why he hm hp hd rfl⟩
  rw [stepWith, advance_of_unrecognized he hm hp hd, unknownOpcode_nop hc]
  exact ⟨_, rfl, rfl, changesOnlyIn_setPc c _ _⟩

/-! ### Faults of instructions -/

/-- Settles O10: an instruction that ends halted has entered `HALTED` from the state it found. -/
theorem faultsArePrecise : Obligations.FaultsArePrecise := by
  intro i s t hm hexec ht
  rw [exec_eq_execWith] at hexec
  obtain ⟨k, hk, rfl⟩ | ⟨-, -, -, -, ⟨hmode, -, -⟩ | ⟨x, -, hmode, -⟩⟩ := execWith_cases hexec
  · exact ⟨k, hk, haltedFrom_enterHalt _ _ s (by rintro rfl; simp at hk)⟩
  · rw [hmode, hm] at ht
    cases ht
  · rw [hmode] at ht
    cases ht

/-- The cause that the checks of an instruction give on this hardware, if they fail (R301, R305). -/
def raisedCause : Instr → State → Option FaultCause
  | .ret, s => if s.sp.val = 0 then some .stackUnderflow else none
  | .call _, s => if s.sp.val = 16 then some .stackOverflow else none
  | .drw _ _ n, s => if n ≠ 0 ∧ s.i.toNat + n - 1 > 0xFFF then some .memRange else none
  | .ldBX _, s =>
    if s.i.toNat + 2 > 0xFFF then some .memRange else if s.i.toNat ≤ 0x04F then some .fontWrite else none
  | .ldMemX x, s =>
    if s.i.toNat + x.val > 0xFFF then some .memRange else if s.i.toNat ≤ 0x04F then some .fontWrite else none
  | .ldXMem x, s => if s.i.toNat + x.val > 0xFFF then some .memRange else none
  | _, _ => none

/-- An instruction whose checks fail enters `HALTED` with their cause. -/
theorem exec_of_raisedCause {i : Instr} {s : State} {k : FaultCause} (h : raisedCause i s = some k) :
    exec i s = .next (s.enterHalt k (encode i)) := by
  cases i with
  | ret =>
    obtain ⟨h0, hk⟩ := Option.ite_none_right_eq_some.1 h
    cases hk
    exact execRet_empty s h0
  | call nnn =>
    obtain ⟨h0, hk⟩ := Option.ite_none_right_eq_some.1 h
    cases hk
    exact execCall_full nnn s h0
  | drw x y n =>
    obtain ⟨h0, hk⟩ := Option.ite_none_right_eq_some.1 h
    cases hk
    exact drw_range _ x y n s h0.1 (by omega)
  | ldBX x =>
    rw [raisedCause] at h
    split at h
    · cases h
      exact storeDecimal_range _ x s (by omega)
    · obtain ⟨h0, hk⟩ := Option.ite_none_right_eq_some.1 h
      cases hk
      exact storeDecimal_font _ x s h0 rfl
  | ldMemX x =>
    rw [raisedCause] at h
    split at h
    · cases h
      exact storeRegs_range _ x s (by omega)
    · obtain ⟨h0, hk⟩ := Option.ite_none_right_eq_some.1 h
      cases hk
      exact storeRegs_font _ x s h0 rfl
  | ldXMem x =>
    obtain ⟨h0, hk⟩ := Option.ite_none_right_eq_some.1 h
    cases hk
    exact loadRegs_range _ x s (by omega)
  | _ => cases h

/-! What the instructions with checks answer when none fails: what they write, in the terms of the state. -/

theorem exec_ret_completes {s : State} (h : raisedCause .ret s = none) :
    ∃ n w, exec .ret s = .next (State.setPc w { s with sp := n }) := by
  have hsp : s.sp.val ≠ 0 := by simpa only [raisedCause, ite_eq_right_iff, reduceCtorEq, imp_false] using h
  exact ⟨_, _, execRet_ok s hsp⟩

theorem exec_call_completes {nnn : BitVec 12} {s : State} (h : raisedCause (.call nnn) s = none) :
    ∃ st n w, exec (.call nnn) s = .next (State.setPc w { s with stack := st, sp := n }) := by
  have hsp : s.sp.val ≠ 16 := by simpa only [raisedCause, ite_eq_right_iff, reduceCtorEq, imp_false] using h
  exact ⟨_, _, _, execCall_ok nnn s (by omega)⟩

theorem exec_drw_completes {x y : Reg} {n : Nat} {s : State} (h : raisedCause (.drw x y n) s = none) :
    exec (.drw x y n) s = .next (drawSprite Config.hardware x y n s) := by
  have hspan : ¬ (n ≠ 0 ∧ s.i.toNat + n - 1 > 0xFFF) := by
    simpa only [raisedCause, ite_eq_right_iff, reduceCtorEq, imp_false] using h
  exact drw_ok _ x y n s (by omega)

theorem exec_ldBX_completes {x : Reg} {s : State} (h : raisedCause (.ldBX x) s = none) :
    ∃ m, exec (.ldBX x) s = .next (State.toNext { s with mem := m }) := by
  obtain ⟨hrange, hfont⟩ : ¬ s.i.toNat + 2 > 0xFFF ∧ ¬ s.i.toNat ≤ 0x04F := by simpa [raisedCause, ite_eq_iff] using h
  exact ⟨_, storeDecimal_ok _ x s (by omega) fun hf => hfont hf.1⟩

theorem exec_ldMemX_completes {x : Reg} {s : State} (h : raisedCause (.ldMemX x) s = none) :
    ∃ m, exec (.ldMemX x) s = .next (State.advanceI x { s with mem := m }).toNext := by
  obtain ⟨hrange, hfont⟩ : ¬ s.i.toNat + x.val > 0xFFF ∧ ¬ s.i.toNat ≤ 0x04F := by
    simpa [raisedCause, ite_eq_iff] using h
  exact ⟨_, storeRegs_ok _ x s (by omega) fun hf => hfont hf.1⟩

/-- FX65 writes V[0] to V[X], I and pc. -/
theorem exec_ldXMem_completes {x : Reg} {s : State} (h : raisedCause (.ldXMem x) s = none) :
    ∃ v, exec (.ldXMem x) s = .next (State.advanceI x { s with v := v }).toNext ∧
      ∀ q, x.val < q.val → ({ s with v := v } : State).getV q = s.getV q := by
  have hrange : ¬ s.i.toNat + x.val > 0xFFF := by
    simpa only [raisedCause, ite_eq_right_iff, reduceCtorEq, imp_false] using h
  have hok := loadRegs_ok Config.hardware x s (by omega)
  obtain ⟨v, hv, -, hframe⟩ := loadFold_loads Config.hardware
    (fun r => s.readMem Config.hardware (memBase s + r.val)) (regsUpTo x) s
  rw [hv] at hok
  refine ⟨v, hok, fun q hq => hframe (.reg q) fun hmem => ?_⟩
  have hle : q.val ≤ x.val := mem_regsUpTo.1 (by simpa using hmem)
  omega

/-- An instruction whose checks pass leaves a running core unhalted. -/
theorem mode_ne_halted_of_raisedCause {i : Instr} {s t : State} (h : raisedCause i s = none) (hm : s.mode = .running)
    (hexec : exec i s = .next t) : t.mode ≠ .halted := by
  cases i with
  | ret =>
    obtain ⟨n, w, hok⟩ := exec_ret_completes h
    cases hok.symm.trans hexec
    simp [hm]
  | call nnn =>
    obtain ⟨st, n, w, hok⟩ := exec_call_completes h
    cases hok.symm.trans hexec
    simp [hm]
  | drw x y n =>
    cases (exec_drw_completes h).symm.trans hexec
    simp [drawSprite, hm]
  | ldBX x =>
    obtain ⟨m, hok⟩ := exec_ldBX_completes h
    cases hok.symm.trans hexec
    simp [hm]
  | ldMemX x =>
    obtain ⟨m, hok⟩ := exec_ldMemX_completes h
    cases hok.symm.trans hexec
    simp [hm]
  | ldXMem x =>
    obtain ⟨v, hok, -⟩ := exec_ldXMem_completes h
    cases hok.symm.trans hexec
    simp [hm]
  | ldXK x =>
    cases hexec
    simp
  | _ =>
    cases hexec
    simp [hm, drawRandom]

/-- A running core halts with a cause exactly when the checks of its instruction give that cause. -/
theorem halts_with_iff {i : Instr} {s t : State} (k : FaultCause) (hm : s.mode = .running) (hexec : exec i s = .next t) :
    (t.mode = .halted ∧ t.fault.cause = k) ↔ raisedCause i s = some k := by
  cases h : raisedCause i s with
  | none => exact iff_of_false (fun hk => mode_ne_halted_of_raisedCause h hm hexec hk.1) (by simp)
  | some k' =>
    cases (exec_of_raisedCause h).symm.trans hexec
    simp

/-- Settles O11: the causes are those that the checks of each instruction give. -/
theorem instructionsRaiseExactlyTheirCauses : Obligations.InstructionsRaiseExactlyTheirCauses := by
  intro i s t hm hexec
  simp only [halts_with_iff _ hm hexec]
  cases i with
  | ldBX x =>
    by_cases hrange : s.i.toNat + 2 > 0xFFF
    · have hfont : ¬ s.i.toNat ≤ 0x04F := by omega
      simp [raisedCause, hrange, hfont]
    · simp [raisedCause, hrange]
  | ldMemX x =>
    by_cases hrange : s.i.toNat + x.val > 0xFFF
    · have hfont : ¬ s.i.toNat ≤ 0x04F := by omega
      simp [raisedCause, hrange, hfont]
    · simp [raisedCause, hrange]
  | drw x y n =>
    have hspan : 4096 < s.i.toNat + n ↔ 4095 < s.i.toNat + n - 1 := by omega
    simp [raisedCause, hspan]
  | _ => simp [raisedCause]

end Sys2Proof.Machine

/-! The host's events (60_exceptions.md, 70_reset_and_hazards.md): what each may write, who writes each piece of the state,
and the two ways in and out of the wait for a key. -/

namespace Sys2Proof.Machine

open Sys2Proof.Statements

/-! ### The shape of each event -/

/-- A tick writes the timers at most. -/
theorem timerTick_frame (s : State) : ∃ d e, timerTick s = { s with dt := d, st := e } := by
  unfold timerTick
  split
  · exact ⟨s.dt, s.st, rfl⟩
  · exact ⟨_, _, rfl⟩
  · exact ⟨_, _, rfl⟩

/-- KEY_DOWN outside the wait writes its key (R315, D28). -/
theorem keyDown_of_ne_awaitKey {s : State} (k : Fin 16) (hm : s.mode ≠ .awaitKey) :
    keyDown k s = { s with keys := s.keys.set k true } := by
  cases h : s.mode with
  | awaitKey => exact absurd h hm
  | running => simp only [keyDown, h]
  | halted => simp only [keyDown, h]

/-- KEY_DOWN in the wait also ends it, with the key's code in V[AWAIT_TARGET] (R315). -/
theorem keyDown_of_awaitKey {s : State} (k : Fin 16) (hm : s.mode = .awaitKey) :
    keyDown k s =
      State.setV s.awaitTarget (BitVec.ofNat 8 k.val) { s with keys := s.keys.set k true, mode := .running } := by
  simp only [keyDown, hm]

/-- KEY_DOWN writes its key, a register and `MODE` at most. -/
theorem keyDown_frame (k : Fin 16) (s : State) :
    ∃ v m, keyDown k s = { s with keys := s.keys.set k true, v := v, mode := m } := by
  by_cases hm : s.mode = .awaitKey
  · exact ⟨_, _, keyDown_of_awaitKey k hm⟩
  · exact ⟨s.v, s.mode, keyDown_of_ne_awaitKey k hm⟩

/-- A LOAD writes memory and its result code at most. -/
theorem loadEvent_frame (c : Config) (b : List Byte) (s : State) :
    ∃ m r, loadEvent c b s = { s with mem := m, loadResult := r } := by
  unfold loadEvent
  split
  · exact ⟨s.mem, _, rfl⟩
  · exact ⟨_, _, rfl⟩

/-! ### Who writes what -/

/-- What a step leaves of the state when it executes no instruction and is no RESET. -/
structure KeptWithoutInstruction (s t : State) : Prop where
  display : t.fb = s.fb
  fbChanged : t.fbChanged = false
  index : t.i = s.i
  pc : t.pc = s.pc
  stack : t.stack = s.stack
  sp : t.sp = s.sp
  timers : nextEvent s ≠ .timerTick → t.dt = s.dt ∧ t.st = s.st
  keys : t.keys ≠ s.keys → ∃ k, nextEvent s = .keyDown k ∨ nextEvent s = .keyUp k
  mem : t.mem ≠ s.mem → ∃ b, nextEvent s = .load b

/-- A STEP on this hardware that executes nothing does nothing or enters `HALTED`; every other event but RESET keeps to
what it may write. -/
theorem keptWithoutInstruction {s t : State} (h : step s = .next t) (hreset : nextEvent s ≠ .reset)
    (hno : ∀ i, ¬ Executes s i) : KeptWithoutInstruction s t := by
  obtain ⟨-, -, rfl⟩ | ⟨-, -, -, rfl⟩ | ⟨he, hm, hp, ⟨i, hd, -⟩ | ⟨why, -, hunknown⟩⟩ | ⟨he, rfl⟩ | ⟨k, he, rfl⟩ |
    ⟨k, he, rfl⟩ | ⟨he, -⟩ | ⟨b, he, rfl⟩ := advance_cases h
  · exact ⟨rfl, rfl, rfl, rfl, rfl, rfl, fun _ => ⟨rfl, rfl⟩, by simp, by simp⟩
  · exact ⟨rfl, rfl, rfl, rfl, rfl, rfl, fun _ => ⟨rfl, rfl⟩, by simp, by simp⟩
  · exact absurd ⟨he, hm, hp, hd⟩ (hno i)
  · cases (unknownOpcode_fault rfl _ _).symm.trans hunknown
    exact ⟨rfl, rfl, rfl, rfl, rfl, rfl, fun _ => ⟨rfl, rfl⟩, by simp, by simp⟩
  · obtain ⟨d, e, hf⟩ := timerTick_frame s.beginEvent
    rw [hf]
    exact ⟨rfl, rfl, rfl, rfl, rfl, rfl, fun hn => absurd he hn, by simp, by simp⟩
  · obtain ⟨v, m, hf⟩ := keyDown_frame k s.beginEvent
    rw [hf]
    exact ⟨rfl, rfl, rfl, rfl, rfl, rfl, fun _ => ⟨rfl, rfl⟩, fun _ => ⟨k, .inl he⟩, by simp⟩
  · exact ⟨rfl, rfl, rfl, rfl, rfl, rfl, fun _ => ⟨rfl, rfl⟩, fun _ => ⟨k, .inr he⟩, by simp⟩
  · exact absurd he hreset
  · obtain ⟨m, r, hf⟩ := loadEvent_frame Config.hardware b s.beginEvent
    rw [hf]
    exact ⟨rfl, rfl, rfl, rfl, rfl, rfl, fun _ => ⟨rfl, rfl⟩, by simp, fun _ => ⟨b, he⟩⟩

/-- A step that is no RESET executes one instruction, or none and keeps what only instructions write. -/
theorem step_cases {s t : State} (h : step s = .next t) (hreset : nextEvent s ≠ .reset) :
    (∃ i, Executes s i ∧ execWith Config.hardware i s.beginEvent = .next t) ∨
      ((∀ i, ¬ Executes s i) ∧ KeptWithoutInstruction s t) := by
  by_cases hex : ∃ i, Executes s i
  · obtain ⟨i, hi⟩ := hex
    rw [step_of_executes hi, exec_eq_execWith] at h
    exact .inl ⟨i, hi, h⟩
  · have hno := not_exists.1 hex
    exact .inr ⟨hno, keptWithoutInstruction h hreset hno⟩

/-- Settles O27: pc is kept by a step that executes no instruction. -/
theorem onlyStepAndResetChangePc : Obligations.OnlyStepAndResetChangePc := by
  intro s t h hstep hreset
  obtain ⟨i, hi, -⟩ | ⟨-, hkept⟩ := step_cases h hreset
  · exact absurd hi.1 hstep
  · exact hkept.pc

/-- Settles O28: without 00E0 and DXYN an instruction keeps the display, and so does a step that executes none. -/
theorem displayHasOnlyItsWritePaths : Obligations.DisplayHasOnlyItsWritePaths := by
  intro s t h hfb
  by_cases hreset : nextEvent s = .reset
  · exact .inl hreset
  · obtain ⟨i, hi, hexec⟩ | ⟨-, hkept⟩ := step_cases h hreset
    · refine .inr ((runsOne_iff _ _).2 ⟨i, hi, ?_⟩)
      by_contra hno
      obtain ⟨hcls, hdrw⟩ := not_or.1 hno
      exact hfb (execWith_display hexec hcls fun x y n hi => hdrw ⟨x, y, n, hi⟩).1
    · exact absurd hkept.display hfb

/-- Settles O29: each part has the instructions of `execWith_writers`; of the other events only the key events and LOAD
write any. -/
theorem otherStateHasOnlyItsWriters : Obligations.OtherStateHasOnlyItsWriters := by
  intro s t h hreset
  simp only [runsOne_iff]
  obtain ⟨i, hi, hexec⟩ | ⟨-, hkept⟩ := step_cases h hreset
  · obtain ⟨-, -, hindex, hstack, hsp, hkeys, hmem⟩ := execWith_writers hexec
    exact ⟨fun hne => ⟨i, hi, hindex hne⟩, fun hne => ⟨i, hi, hstack hne⟩, fun hne => ⟨i, hi, hsp hne⟩,
      fun hne => absurd hkeys hne, fun hne => .inr ⟨i, hi, hmem hne⟩⟩
  · exact ⟨fun hne => absurd hkept.index hne, fun hne => absurd hkept.stack hne, fun hne => absurd hkept.sp hne,
      hkept.keys, fun hne => .inl (hkept.mem hne)⟩

/-! ### The timers -/

/-- Writing the timers. -/
theorem changesOnlyIn_timers (c : Config) (s : State) (d e : Byte) :
    changesOnlyIn c [.delayTimer, .soundTimer] s { s with dt := d, st := e } := by
  intro p hp
  cases p with
  | delayTimer => simp at hp
  | soundTimer => simp at hp
  | _ => rfl

theorem timerTick_of_halted {s : State} (hm : s.mode = .halted) : timerTick s = s := by
  simp only [timerTick, hm]

/-- Settles O18: a halted core ignores the tick, any other counts both timers down; else FX15 writes DT and FX18 writes
ST. -/
theorem timerTickDecrementsBothTimers : Obligations.TimerTickDecrementsBothTimers := by
  constructor
  · intro s rest hs
    have hstep := step_timerTick (nextEvent_cons hs)
    by_cases hm : s.mode = .halted
    · rw [timerTick_of_halted (s := s.beginEvent) hm] at hstep
      exact ⟨_, hstep, (if_pos hm).symm, (if_pos hm).symm, rfl, changesOnlyIn_refl _ _ _⟩
    · rw [timerTick_of_ne_halted (s := s.beginEvent) hm] at hstep
      exact ⟨_, hstep, (countdown_toNat s.dt).trans (if_neg hm).symm, (countdown_toNat s.st).trans (if_neg hm).symm, rfl,
        changesOnlyIn_timers _ _ _ _⟩
  · intro s t h htick hreset
    simp only [runsOne_iff]
    obtain ⟨i, hi, hexec⟩ | ⟨-, hkept⟩ := step_cases h hreset
    · obtain ⟨hdt, hst, -⟩ := execWith_writers hexec
      exact ⟨fun hne => ⟨i, hi, hdt hne⟩, fun hne => ⟨i, hi, hst hne⟩⟩
    · obtain ⟨hdt, hst⟩ := hkept.timers htick
      exact ⟨fun hne => absurd hdt hne, fun hne => absurd hst hne⟩

/-- Settles O19, by induction on the number of ticks: each takes 1 from both timers and leaves the rest scheduled. -/
theorem timersAfterTicksAreLessByTheirCount : Obligations.TimersAfterTicksAreLessByTheirCount := by
  intro n
  induction n with
  | zero => exact fun s rest _ hs => ⟨s, rfl, rfl, rfl, hs, rfl, rfl⟩
  | succ n ih =>
    intro s rest hm hs
    rw [List.replicate_succ, List.cons_append] at hs
    have htick := timerTick_of_ne_halted (s := s.beginEvent) hm
    have hstep := step_timerTick (nextEvent_cons hs)
    rw [htick] at hstep
    have hrest : s.beginEvent.schedule = List.replicate n .timerTick ++ rest := by
      rw [State.beginEvent_schedule, hs, List.tail_cons]
    obtain ⟨t, hrun, hdt, hst, hsched, hpc, hmode⟩ :=
      ih { s.beginEvent with dt := countdown s.dt, st := countdown s.st } rest hm hrest
    rw [countdown_toNat] at hdt hst
    exact ⟨t, (run_succ n hstep).trans hrun, by omega, by omega, hsched, hpc, hmode⟩

/-! ### Keys -/

/-- Writing one key. -/
theorem changesOnlyIn_setKey (c : Config) (s : State) (k : Fin 16) (b : Bool) :
    changesOnlyIn c [.key k] s { s with keys := s.keys.set k b } := by
  intro p hp
  cases p with
  | key j =>
    have hne : k.val ≠ j.val := fun e => hp (by simp [Fin.ext e])
    exact Vector.getElem_set_ne k.isLt j.isLt hne
  | _ => rfl

/-- The end of the wait writes the key, `MODE` and one register. -/
theorem changesOnlyIn_endWait (c : Config) (s : State) (k : Fin 16) (m : Mode) (x : Reg) (w : Byte) :
    changesOnlyIn c [.key k, .mode, .reg x] s (State.setV x w { s with keys := s.keys.set k true, mode := m }) := by
  intro p hp
  cases p with
  | reg r => exact State.getV_setV_other w _ (by simpa using hp)
  | key j => exact changesOnlyIn_setKey c s k true (.key j) (by simpa using hp)
  | mode => simp at hp
  | _ => rfl

/-- Settles O20: in the wait KEY_DOWN writes its key, `MODE` and V[AWAIT_TARGET], else its key alone. -/
theorem keyDownHoldsKeyAndEndsWait : Obligations.KeyDownHoldsKeyAndEndsWait := by
  intro s k rest hs
  have hstep := step_keyDown (nextEvent_cons hs)
  by_cases hm : s.mode = .awaitKey
  · rw [keyDown_of_awaitKey (s := s.beginEvent) k hm] at hstep
    refine ⟨_, hstep, Vector.getElem_set_self k.isLt, rfl,
      fun _ => ⟨rfl, ?_, changesOnlyIn_endWait _ s.beginEvent k _ _ _⟩, fun hne => absurd hm hne⟩
    rw [State.beginEvent_awaitTarget, State.getV_setV_same, BitVec.toNat_ofNat]
    omega
  · rw [keyDown_of_ne_awaitKey (s := s.beginEvent) k hm] at hstep
    exact ⟨_, hstep, Vector.getElem_set_self k.isLt, rfl, fun h => absurd h hm,
      fun _ => changesOnlyIn_setKey _ s.beginEvent k true⟩

/-- Settles O21: KEY_UP writes its key alone. -/
theorem keyUpReleasesKeyOnly : Obligations.KeyUpReleasesKeyOnly := by
  intro s k rest hs
  exact ⟨_, step_keyUp (nextEvent_cons hs), Vector.getElem_set_self k.isLt, rfl,
    changesOnlyIn_setKey _ s.beginEvent k false⟩

/-! ### LOAD -/

/-- A LOAD writes its result code and, from 0x200 upward, its bytes at most. -/
theorem changesOnlyIn_loadEvent (c : Config) (b : List Byte) (s : State) :
    changesOnlyIn c (.loadResult :: bytesFrom 0x200 b.length) s (loadEvent c b s) := by
  by_cases h : b.length > maxProgLen
  · rw [loadEvent_tooLarge c s h]
    exact changesOnlyIn_append (changesOnlyIn_refl c (bytesFrom 0x200 b.length) s) (changesOnlyIn_loadResult c s _)
  · rw [loadEvent_ok c s (Nat.not_lt.1 h)]
    exact changesOnlyIn_append (changesOnlyIn_writeBytes c progBase b s) (changesOnlyIn_loadResult c _ _)

/-- Settles O22: the bytes written read back, and the rest is the frame of LOAD. -/
theorem loadWritesItsBytesOnly : Obligations.LoadWritesItsBytesOnly := by
  intro s b rest hs hfits
  refine ⟨_, step_load (nextEvent_cons hs), ?_, ?_, changesOnlyIn_loadEvent _ b _⟩
  · rw [loadEvent_ok _ _ hfits]
  · rw [loadEvent_ok _ _ hfits]
    exact State.readMem_writeBytes_same _ b progBase s.beginEvent

/-! ### A halted core -/

/-- Settles O24: outside `RUNNING` a STEP does nothing, in `HALTED` a tick does nothing, and no other event but RESET looks
at `HALTED`. -/
theorem haltedCoreIsFrozen : Obligations.HaltedCoreIsFrozen := by
  intro s hm
  refine ⟨?_, ?_, ?_⟩
  · rintro (he | he)
    · exact ⟨_, advance_notRunning he (by simp [hm]), rfl, changesOnlyIn_refl _ _ _⟩
    · have hstep := step_timerTick he
      rw [timerTick_of_halted (s := s.beginEvent) hm] at hstep
      exact ⟨_, hstep, rfl, changesOnlyIn_refl _ _ _⟩
  · rintro k (he | he)
    · have hstep := step_keyDown he
      rw [keyDown_of_ne_awaitKey (s := s.beginEvent) k (by simp [hm])] at hstep
      exact ⟨_, hstep, rfl, changesOnlyIn_setKey _ s.beginEvent k true⟩
    · exact ⟨_, step_keyUp he, rfl, changesOnlyIn_setKey _ s.beginEvent k false⟩
  · intro b he
    exact ⟨_, step_load he, changesOnlyIn_loadEvent _ b _⟩

/-! ### The wait for a key -/

/-- A running core enters the wait exactly by FX0A (R317). -/
theorem exec_enters_wait_iff {i : Instr} {s t : State} (hm : s.mode = .running) (hexec : exec i s = .next t) :
    t.mode = .awaitKey ↔ ∃ x, i = .ldXK x := by
  constructor
  · intro ht
    rw [exec_eq_execWith] at hexec
    obtain ⟨k, -, rfl⟩ | ⟨-, -, -, -, ⟨hmode, -, -⟩ | ⟨x, hx, -, -⟩⟩ := execWith_cases hexec
    · cases ht
    · rw [hmode, hm] at ht
      cases ht
    · exact ⟨x, hx⟩
  · rintro ⟨x, rfl⟩
    cases hexec
    rfl

/-- In the wait, the events other than KEY_DOWN and RESET keep `MODE` (R131, R317). -/
theorem mode_step_of_awaitKey {s t : State} (hm : s.mode = .awaitKey) (h : step s = .next t) :
    t.mode ≠ .awaitKey ↔ ((∃ k, nextEvent s = .keyDown k) ∨ nextEvent s = .reset) := by
  obtain ⟨he, -, rfl⟩ | ⟨-, hrun, -, -⟩ | ⟨-, hrun, -, -⟩ | ⟨he, rfl⟩ | ⟨k, he, rfl⟩ | ⟨k, he, rfl⟩ | ⟨he, rfl⟩ |
    ⟨b, he, rfl⟩ := advance_cases h
  · simp [hm, he]
  · rw [hm] at hrun
    cases hrun
  · rw [hm] at hrun
    cases hrun
  · rw [timerTick_of_ne_halted (by simp [hm])]
    simp [hm, he]
  · rw [keyDown_of_awaitKey (s := s.beginEvent) k hm]
    simp [he]
  · simp [keyUp, hm, he]
  · simp [resetEvent, State.reset, he]
  · obtain ⟨m, r, hf⟩ := loadEvent_frame Config.hardware b s.beginEvent
    simp [hf, hm, he]

/-- Settles O25: the entry by an instruction and the exit by an event, each an equivalence of its own. -/
theorem awaitKeyIsEnteredAndLeftAsStated : Obligations.AwaitKeyIsEnteredAndLeftAsStated :=
  ⟨fun _ _ _ => exec_enters_wait_iff, fun _ _ => mode_step_of_awaitKey⟩

/-! ### The strobe `fb_changed` -/

/-- DXYN from a running core with the strobe off turns it on exactly when it does not fault (R164). -/
theorem fbChanged_drw_iff {x y : Reg} {n : Nat} {s t : State} (hm : s.mode = .running) (hoff : s.fbChanged = false)
    (hexec : exec (.drw x y n) s = .next t) : t.fbChanged = true ↔ t.mode = .running := by
  cases h : raisedCause (.drw x y n) s with
  | some k =>
    cases (exec_of_raisedCause h).symm.trans hexec
    simp [hoff]
  | none =>
    cases (exec_drw_completes h).symm.trans hexec
    simp [drawSprite, hm]

/-- Settles O30: each event begins with the strobe off, and only 00E0 and a DXYN that does not fault turn it on. -/
theorem fbChangedPulsesForDrawAndClear : Obligations.FbChangedPulsesForDrawAndClear := by
  intro s t h
  by_cases hreset : nextEvent s = .reset
  · cases (step_reset hreset).symm.trans h
    simp [hreset, resetEvent, State.reset]
  · obtain ⟨i, ⟨he, hm, hp, hd⟩, hexec⟩ | ⟨hno, hkept⟩ := step_cases h hreset
    · simp only [he, hm, hp, hd, true_and, Except.ok.injEq]
      by_cases hcls : i = .cls
      · subst hcls
        cases hexec
        simp
      · by_cases hdrw : ∃ x y n, i = .drw x y n
        · obtain ⟨x, y, n, rfl⟩ := hdrw
          simpa using fbChanged_drw_iff (s := s.beginEvent) hm rfl hexec
        · have hfb := (execWith_display hexec hcls fun x y n hi => hdrw ⟨x, y, n, hi⟩).2
          simp [hfb, hcls, hdrw]
    · rw [hkept.fbChanged]
      refine iff_of_false (by simp) ?_
      rintro ⟨he, hm, hp, hd | ⟨-, x, y, n, hd⟩⟩
      · exact hno _ ⟨he, hm, hp, hd⟩
      · exact hno _ ⟨he, hm, hp, hd⟩

/-! ### Parking -/

/-- A parked state executes the jump to its own pc (R362). -/
theorem executes_of_parked {s : State} (h : s.parked) (he : nextEvent s = .step) :
    ∃ nnn, Executes s (.jp nnn) ∧ zextAddr nnn = s.pc := by
  obtain ⟨hm, hpc, hhi, hlo⟩ := h
  have hword : (wordAtPc Config.hardware s).toNat = 0x1000 + s.pc.toNat := by
    rw [wordAtPc, ← wordOfBytes_eq, wordOfBytes_toNat]
    change (s.byteAt s.pc.toNat).toNat * 256 + (s.byteAt (s.pc.toNat + 1)).toNat = _
    omega
  have hfamily : opFamily (wordAtPc Config.hardware s) = 1 := by
    rw [opFamily_eq, hword]
    omega
  refine ⟨opNNN (wordAtPc Config.hardware s), ⟨he, hm, by omega, by simp only [decodeWord, hfamily]⟩, ?_⟩
  refine BitVec.eq_of_toNat_eq ?_
  rw [zextAddr_toNat, opNNN_toNat, hword]
  omega

/-- Settles O32: the jump writes the pc that is there. -/
theorem parkedStateStaysAsItIs : Obligations.ParkedStateStaysAsItIs := by
  intro s hparked he
  obtain ⟨nnn, hexec, hpc⟩ := executes_of_parked hparked he
  have hself : s.beginEvent.setPc (zextAddr nnn) = s.beginEvent := by
    rw [hpc]
    rfl
  exact ⟨s.beginEvent, (step_of_executes hexec).trans (congrArg _ hself), rfl, changesOnlyIn_refl _ _ _⟩

end Sys2Proof.Machine

/-! Reset (70_reset_and_hazards.md) and the invariant of the machine: it holds at reset, and each event keeps it. -/

namespace Sys2Proof.Machine

/-! ### Reset -/

/-- Settles O14: the fields as R47 has them; memory lists no cell and reads as its reset contents. -/
theorem resetStateHoldsTheListedValues : Obligations.ResetStateHoldsTheListedValues := by
  refine ⟨by decide, rfl, rfl, rfl, by decide, rfl, rfl, fun r _ c _ => FrameBuffer.pixel_blank r c, by decide, rfl, rfl,
    rfl, Memory.background_glyph Config.hardware, fun a ha _ => ?_, rfl, rfl, rfl⟩
  exact dif_neg (by omega)

/-- Settles O15: the answer is the reset state but for the two fields of the environment. -/
theorem resetEventReinitializesEverything : Obligations.ResetEventReinitializesEverything := by
  intro s rest hs
  refine ⟨_, step_reset (nextEvent_cons hs), rfl, ?_, rfl, congrArg List.tail hs⟩
  intro p hp
  cases p with
  | rndDraws => simp at hp
  | schedule => simp at hp
  | _ => rfl

/-! ### What keeps the invariant -/

/-- RESET leaves a state that meets the invariant: the fields it keeps are no part of it. -/
theorem State.inv_resetEvent (s : State) : (resetEvent s).Inv where
  memory := Memory.wf_nil _
  font := fun _ h => absurd h List.not_mem_nil
  pcBound := show (0x200 : Word).toNat ≤ 0x10FE by decide
  returnAddresses := fun _ h => absurd h (Nat.not_lt_zero _)
  recordClear := fun _ => rfl
  recordWritten := fun h => by cases h

/-- Settles O16: the reset state is what a RESET of it answers. -/
theorem resetMeetsInvariant : Obligations.ResetMeetsInvariant := State.inv_resetEvent State.reset

/-- The invariant speaks of memory, pc, the call stack, `MODE` and the fault record alone. -/
theorem State.Inv.of_eq {s t : State} (hs : s.Inv) (hmem : t.mem = s.mem) (hpc : t.pc = s.pc) (hstack : t.stack = s.stack)
    (hsp : t.sp = s.sp) (hmode : t.mode = s.mode) (hfault : t.fault = s.fault) : t.Inv where
  memory := hmem ▸ hs.memory
  font := hmem ▸ hs.font
  pcBound := hpc ▸ hs.pcBound
  returnAddresses := by rw [hstack, hsp]; exact hs.returnAddresses
  recordClear := by rw [hmode, hfault]; exact hs.recordClear
  recordWritten := by rw [hmode, hfault, hpc]; exact hs.recordWritten

theorem State.Inv.beginEvent {s : State} (hs : s.Inv) : s.beginEvent.Inv := hs.of_eq rfl rfl rfl rfl rfl rfl

/-- The entry into `HALTED` completes the fault record (R302). -/
theorem State.Inv.enterHalt {s : State} (hs : s.Inv) {k : FaultCause} (op : Word) (hk : k ≠ .none) :
    (s.enterHalt k op).Inv where
  memory := hs.memory
  font := hs.font
  pcBound := hs.pcBound
  returnAddresses := hs.returnAddresses
  recordClear := fun h => absurd rfl h
  recordWritten := fun _ => ⟨hk, rfl, by simp, fun h => if_pos h⟩

/-! ### The parts of the invariant, over one instruction -/

/-- Memory stays canonical and the font intact: an instruction writes inside the address space and above the font. -/
theorem memory_of_execWith {i : Instr} {s t : State} (hs : s.Inv) (h : execWith Config.hardware i s = .next t) :
    t.mem.wf Config.hardware = true ∧ ∀ e ∈ t.mem, 0x04F < e.1 := by
  obtain hmem | ⟨ws, hmem, hspan, hprotected⟩ := execWith_mem h
  · rw [hmem]
    exact ⟨hs.memory, hs.font⟩
  · rw [hmem]
    refine ⟨State.wf_writeBytes hs.memory hspan, fun e he => ?_⟩
    have hbase : 0x04F < s.i.toNat := by
      by_contra hle
      exact hprotected ⟨by omega, rfl⟩
    obtain hold | ⟨hlow, -⟩ := State.mem_writeBytes he
    · exact hs.font e hold
    · exact Nat.lt_of_lt_of_le hbase hlow

theorem zextAddr_le (nnn : BitVec 12) : (zextAddr nnn).toNat ≤ 0xFFF := by
  have := nnn.isLt
  rw [zextAddr_toNat]
  omega

theorem jumpV0Target_le (nnn : BitVec 12) (s : State) : (jumpV0Target nnn s).toNat ≤ 0x10FE := by
  have := nnn.isLt
  have := (s.getV 0).isLt
  rw [jumpV0Target_toNat]
  omega

/-- The pc stays at most 0x10FE, the largest target of BNNN (R35). -/
theorem pcBound_of_execWith {i : Instr} {s t : State} (hs : s.Inv) (hp : s.pc.toNat + 1 ≤ 0xFFF)
    (h : execWith Config.hardware i s = .next t) : t.pc.toNat ≤ 0x10FE := by
  obtain ⟨-, -, hpc⟩ | ⟨-, -, nnn, hpc | hpc⟩ | ⟨nnn, -, -, -, hpc⟩ | ⟨hsp, -, -, hpc⟩ := execWith_control h
  · bv_omega
  · rw [hpc]
    exact Nat.le_trans (zextAddr_le nnn) (by decide)
  · rw [hpc]
    exact jumpV0Target_le nnn s
  · rw [hpc]
    exact Nat.le_trans (zextAddr_le nnn) (by decide)
  · have hlt := s.sp.isLt
    have := hs.returnAddresses ⟨s.sp.val - 1, by omega⟩ (Nat.pred_lt hsp)
    rw [hpc]
    exact Nat.le_trans this (by decide)

/-- The return addresses stay at most 0x1000: a call pushes `pc + 2` of a pc that was fetched from (R182). -/
theorem returnAddresses_of_execWith {i : Instr} {s t : State} (hs : s.Inv) (hp : s.pc.toNat + 1 ≤ 0xFFF)
    (h : execWith Config.hardware i s = .next t) : ∀ j : Fin 16, j.val < t.sp.val → t.stack[j].toNat ≤ 0x1000 := by
  intro j hj
  obtain ⟨hstack, hsp, -⟩ | ⟨hstack, hsp, -⟩ | ⟨nnn, hlt, hstack, hsp, -⟩ | ⟨-, hstack, hsp, -⟩ := execWith_control h
  · rw [hstack]
    exact hs.returnAddresses j (hsp ▸ hj)
  · rw [hstack]
    exact hs.returnAddresses j (hsp ▸ hj)
  · have hget : t.stack[j] = if s.sp.val = j.val then s.pc + 2 else s.stack[j] := by
      rw [hstack]
      exact Vector.getElem_set hlt j.isLt
    rw [hget]
    split
    · bv_omega
    · exact hs.returnAddresses j (by omega)
  · rw [hstack]
    exact hs.returnAddresses j (by omega)

/-- An instruction from a running state keeps the invariant. -/
theorem State.Inv.execWith {i : Instr} {s t : State} (hs : s.Inv) (hm : s.mode = .running) (hp : s.pc.toNat + 1 ≤ 0xFFF)
    (h : Machine.execWith Config.hardware i s = .next t) : t.Inv := by
  obtain ⟨k, hk, rfl⟩ | ⟨hfault, -, -, -, hmode⟩ := execWith_cases h
  · exact hs.enterHalt _ (by rintro rfl; simp at hk)
  · have hrunning : t.mode ≠ .halted := by
      obtain ⟨hmode, -⟩ | ⟨x, -, hmode, -⟩ := hmode
      · simp [hmode, hm]
      · simp [hmode]
    obtain ⟨hmemory, hfont⟩ := memory_of_execWith hs h
    exact ⟨hmemory, hfont, pcBound_of_execWith hs hp h, returnAddresses_of_execWith hs hp h,
      fun _ => hfault.trans (hs.recordClear (by simp [hm])), fun hhalted => absurd hhalted hrunning⟩

/-! ### The invariant over the other events -/

theorem State.Inv.timerTick {s : State} (hs : s.Inv) : (timerTick s).Inv := by
  obtain ⟨d, e, hf⟩ := timerTick_frame s
  rw [hf]
  exact hs.of_eq rfl rfl rfl rfl rfl rfl

/-- KEY_DOWN moves between modes that are not `HALTED`, if at all. -/
theorem State.Inv.keyDown {s : State} (hs : s.Inv) (k : Fin 16) : (keyDown k s).Inv := by
  by_cases hm : s.mode = .awaitKey
  · rw [keyDown_of_awaitKey k hm]
    exact ⟨hs.memory, hs.font, hs.pcBound, hs.returnAddresses, fun _ => hs.recordClear (by simp [hm]),
      fun h => by cases h⟩
  · rw [keyDown_of_ne_awaitKey k hm]
    exact hs.of_eq rfl rfl rfl rfl rfl rfl

/-- A LOAD writes inside the address space, above the font (R79). -/
theorem State.Inv.loadEvent {s : State} (hs : s.Inv) (b : List Byte) : (loadEvent Config.hardware b s).Inv := by
  by_cases h : b.length > maxProgLen
  · rw [loadEvent_tooLarge _ s h]
    exact hs.of_eq rfl rfl rfl rfl rfl rfl
  · rw [loadEvent_ok _ s (Nat.not_lt.1 h)]
    refine ⟨State.wf_writeBytes hs.memory ?_, fun e he => ?_, hs.pcBound, hs.returnAddresses, hs.recordClear,
      hs.recordWritten⟩
    · simp only [progBase, maxProgLen] at *
      omega
    · obtain hold | ⟨hlow, -⟩ := State.mem_writeBytes he
      · exact hs.font e hold
      · exact Nat.lt_of_lt_of_le (by decide) hlow

/-- Settles O17, over the cases of one event: an instruction, an entry into `HALTED`, and each event of the host. -/
theorem stepKeepsInvariant : Obligations.StepKeepsInvariant := by
  intro s t hs h
  have hbegin := hs.beginEvent
  rw [step_eq_stepWith] at h
  obtain ⟨-, -, rfl⟩ | ⟨-, -, -, rfl⟩ | ⟨-, hm, hp, ⟨i, -, hexec⟩ | ⟨why, -, hunknown⟩⟩ | ⟨-, rfl⟩ | ⟨k, -, rfl⟩ |
    ⟨k, -, rfl⟩ | ⟨-, rfl⟩ | ⟨b, -, rfl⟩ := advance_cases h
  · exact hbegin
  · exact hbegin.enterHalt _ (by decide)
  · exact hbegin.execWith hm hp hexec
  · cases (unknownOpcode_fault rfl _ _).symm.trans hunknown
    exact hbegin.enterHalt _ (by decide)
  · exact hbegin.timerTick
  · exact hbegin.keyDown k
  · exact hbegin.of_eq rfl rfl rfl rfl rfl rfl
  · exact State.inv_resetEvent _
  · exact hbegin.loadEvent b

end Sys2Proof.Machine

/-! The display family (41_display.md): what 00E0 and DXYN answer, and two equal draws in a row. -/

namespace Sys2Proof.Machine

open Sys2Proof.Laws Sys2Proof.Statements

/-! ### 00E0 -/

/-- Writing the display, the strobe and pc. -/
theorem changesOnlyIn_setFb (c : Config) (s : State) (fb : FrameBuffer) (b : Bool) (q : Word) :
    changesOnlyIn c [.display, .fbChanged, .pc] s { s with fb := fb, fbChanged := b, pc := q } := by
  intro p hp
  cases p with
  | display => simp at hp
  | fbChanged => simp at hp
  | pc => simp at hp
  | _ => rfl

/-- Settles O34: the display it writes is blank. -/
theorem clsClearsTheDisplay : Obligations.ClsClearsTheDisplay :=
  ⟨EncodeMatches.encodedBy_of EncodeMatches.cls rfl, fun s => ⟨_, rfl, fun r _ col _ => FrameBuffer.pixel_blank r col,
    rfl, rfl, rfl, changesOnlyIn_setFb _ s _ _ _⟩⟩

/-! ### DXYN -/

/-- A completed DXYN writes the display, VF, the strobe and pc. -/
theorem changesOnlyIn_drawSprite (c : Config) (x y : Reg) (n : Nat) (s : State) :
    changesOnlyIn c [.display, .reg vF, .fbChanged, .pc] s (drawSprite c x y n s) := by
  intro p hp
  cases p with
  | reg r => exact State.getV_setV_other _ _ (by simpa using hp)
  | display => simp at hp
  | fbChanged => simp at hp
  | pc => simp at hp
  | _ => rfl

/-- Settles O35: the checks of the reads pass or give MEM_RANGE, and the draw is the blit of `blit_spec`. -/
theorem drwXorsTheSpriteOntoTheDisplay : Obligations.DrwXorsTheSpriteOntoTheDisplay := by
  intro x y n s hn
  refine ⟨EncodeMatches.encodedBy_of (EncodeMatches.drw x y n) rfl, fun hread => ?_, fun h0 hrange => ?_⟩
  · have hle : n ≤ 32 := by omega
    refine ⟨_, drw_ok _ x y n s (by omega), fun r hr col hc => pixel_drawSprite x y s hle hr hc,
      getV_vF_drawSprite_eq_one x y s hle, ?_, rfl, rfl, rfl, changesOnlyIn_drawSprite _ x y n s⟩
    rw [getV_vF_drawSprite, flagByte_eq_zero, flagByte_eq_one]
    exact (Bool.eq_false_or_eq_true _).symm
  · exact ⟨_, drw_range _ x y n s h0 (by omega), haltedFrom_enterHalt _ _ s (by decide)⟩

/-! ### Two equal draws -/

/-- A draw at coordinates that are not in VF leaves what the next one at them reads: the registers, I and memory. -/
theorem spriteHits_drawSprite {x y : Reg} (hx : x ≠ vF) (hy : y ≠ vF) (n : Nat) (s : State) (r col : Nat) :
    spriteHits x y n (drawSprite Config.hardware x y n s) r col ↔ spriteHits x y n s r col := by
  have hgetX : (drawSprite Config.hardware x y n s).getV x = s.getV x := State.getV_setV_other _ _ hx
  have hgetY : (drawSprite Config.hardware x y n s).getV y = s.getV y := State.getV_setV_other _ _ hy
  rw [spriteHits, hgetX, hgetY]
  rfl

/-- Settles O37: the second draw hits the same pixels, so it inverts them back, and it finds at 1 those that were 0. -/
theorem drawingTwiceRestoresTheDisplay : Obligations.DrawingTwiceRestoresTheDisplay := by
  intro x y n s hn hx hy hread
  have hle : n ≤ 32 := by omega
  have hfirst : ∀ r < 32, ∀ col < 64, ((drawSprite Config.hardware x y n s).fb.pixel r col = true ↔
      (s.fb.pixel r col = true ↔ ¬ spriteHits x y n s r col)) :=
    fun r hr col hc => pixel_drawSprite x y s hle hr hc
  refine ⟨_, _, drw_ok _ x y n s (by omega), drw_ok _ x y n (drawSprite Config.hardware x y n s)
    (show n = 0 ∨ s.i.toNat + n ≤ 0x1000 by omega), ?_, ?_⟩
  · refine FrameBuffer.ext_pixel fun r hr col hc => Bool.eq_iff_iff.2 ?_
    rw [pixel_drawSprite x y _ hle hr hc, hfirst r hr col hc, spriteHits_drawSprite hx hy]
    tauto
  · rw [getV_vF_drawSprite_eq_one x y _ hle]
    refine exists_congr fun r => and_congr_right fun hr => exists_congr fun col => and_congr_right fun hc => ?_
    rw [hfirst r hr col hc, spriteHits_drawSprite hx hy, ← Bool.not_eq_true]
    tauto

end Sys2Proof.Machine

/-! The output ports (10_state.md section 7): the fields of STATUS read back from the word that lays them out. -/

namespace Sys2Proof.Machine

theorem status_mode_field (s : State) : s.status.extractLsb' 0 2 = s.mode.code := by
  rw [State.status, extract_append_low _ _ _ _ (by decide), extract_append_low _ _ _ _ (by decide),
    extract_append_low _ _ _ _ (by decide), extract_append_low _ _ _ _ (by decide), extract_all]

theorem status_awaitTarget_field (s : State) :
    s.status.extractLsb' 2 4 = if s.mode = .awaitKey then BitVec.ofNat 4 s.awaitTarget.val else 0 := by
  rw [State.status, extract_append_low _ _ _ _ (by decide), extract_append_low _ _ _ _ (by decide),
    extract_append_low _ _ _ _ (by decide), extract_append_high]

theorem status_cause_field (s : State) :
    s.status.extractLsb' 6 3 = if s.mode = .halted then s.fault.cause.code else 0 := by
  rw [State.status, extract_append_low _ _ _ _ (by decide), extract_append_low _ _ _ _ (by decide),
    extract_append_high]

theorem status_opcodeValid_field (s : State) :
    s.status.extractLsb' 9 1 = if s.mode = .halted ∧ s.fault.opcodeValid then 1 else 0 := by
  rw [State.status, extract_append_low _ _ _ _ (by decide), extract_append_high]

theorem status_reserved_field (s : State) : s.status.extractLsb' 10 6 = 0 := by
  rw [State.status, extract_append_high]

/-- Settles O33: each field is the code that was laid out there. -/
theorem statusPortShowsModeAndFault : Obligations.StatusPortShowsModeAndFault := by
  intro s
  rw [status_mode_field, status_awaitTarget_field, status_cause_field, status_opcodeValid_field]
  refine ⟨?_, ?_, ?_, ?_, status_reserved_field s, rfl, rfl⟩
  · cases s.mode <;> rfl
  · rw [apply_ite BitVec.toNat, BitVec.toNat_ofNat, Nat.mod_eq_of_lt s.awaitTarget.isLt]
    rfl
  · rw [apply_ite BitVec.toNat]
    cases s.fault.cause <;> rfl
  · rw [apply_ite BitVec.toNat]
    rfl

end Sys2Proof.Machine

/-! Registers, calls, the index register and keys (42_control.md to 45_timer_input.md): the operations with a flag, the
random byte, two round trips, the key skips and the entry into the wait. -/

namespace Sys2Proof.Machine

open Sys2Proof.Laws Sys2Proof.Statements

/-! ### Results with a flag -/

theorem flagByte_decide (p : Prop) [Decidable p] : flagByte (decide p) = if p then 1 else 0 := by
  by_cases h : p <;> simp [flagByte, h]

/-- An answer that writes a result, its flag and pc: VF holds the flag for every X, and V[X] the result if it is not VF
(R137). -/
theorem answers_of_setVFlag (c : Config) {o : Outcome} {x : Reg} {w f : Byte} {s : State}
    (h : o = .next (s.setVFlag x w f).toNext) :
    ∃ t, o = .next t ∧ (x ≠ vF → t.getV x = w) ∧ t.getV vF = f ∧ t.pc = s.pc + 2 ∧ t.mem = s.mem ∧
      changesOnlyIn c [.reg x, .reg vF, .pc] s t := by
  refine ⟨_, h, fun hx => ?_, State.getV_setVFlag_vF x w f s, rfl, rfl, changesOnlyIn_setVFlag c s x w f _⟩
  exact (State.getV_setVFlag x x w f s).trans ((if_neg hx).trans (if_pos rfl))

/-- Settles O47: the carry is that of the exact sum. -/
theorem addRegCarriesIntoVF : Obligations.AddRegCarriesIntoVF := by
  intro x y s
  obtain ⟨t, ht, hresult, hflag, hframe⟩ := answers_of_setVFlag Config.hardware (o := exec (.addReg x y) s) rfl
  refine ⟨EncodeMatches.encodedBy_of (EncodeMatches.addReg x y) rfl, t, ht, fun hx => ?_, ?_, hframe⟩
  · rw [hresult hx, BitVec.toNat_add]
  · rw [hflag, carryFlag, flagByte_decide]

/-- The difference of two bytes as bit vectors wraps at 256. -/
theorem toNat_byte_sub (a b : Byte) : (a - b).toNat = (a.toNat + 256 - b.toNat) % 256 := by
  have := b.isLt
  rw [BitVec.toNat_sub]
  omega

/-- Settles O48: the two differ in which operand is the minuend. -/
theorem subtractionsPutNotBorrowIntoVF : Obligations.SubtractionsPutNotBorrowIntoVF := by
  refine ⟨fun x y s => ⟨EncodeMatches.encodedBy_of (EncodeMatches.sub x y) rfl, ?_⟩,
    fun x y s => ⟨EncodeMatches.encodedBy_of (EncodeMatches.subn x y) rfl, ?_⟩⟩
  · obtain ⟨t, ht, hresult, hflag, hframe⟩ := answers_of_setVFlag Config.hardware (o := exec (.sub x y) s) rfl
    refine ⟨t, ht, fun hx => ?_, ?_, hframe⟩
    · rw [hresult hx, toNat_byte_sub]
    · rw [hflag, notBorrowFlag, flagByte_decide]
  · obtain ⟨t, ht, hresult, hflag, hframe⟩ := answers_of_setVFlag Config.hardware (o := exec (.subn x y) s) rfl
    refine ⟨t, ht, fun hx => ?_, ?_, hframe⟩
    · rw [hresult hx, toNat_byte_sub]
    · rw [hflag, notBorrowFlag, flagByte_decide]

/-! ### Shifts -/

/-- The operand of a shift is the register that `SHIFT_SOURCE` names. -/
theorem shiftOperand_eq (c : Config) (x y : Reg) (s : State) :
    shiftOperand c x y s = s.getV (if c.shiftSource = .vy then y else x) := by
  unfold shiftOperand
  cases c.shiftSource <;> rfl

theorem toNat_byte_shiftRight_one (a : Byte) : (a >>> 1).toNat = a.toNat / 2 := by
  rw [BitVec.toNat_ushiftRight, Nat.shiftRight_eq_div_pow]

theorem toNat_byte_shiftLeft_one (a : Byte) : (a <<< 1).toNat = 2 * a.toNat % 256 := by
  rw [BitVec.toNat_shiftLeft, Nat.shiftLeft_eq, Nat.mul_comm]

theorem shiftedOutLow_toNat (a : Byte) : (shiftedOutLow a).toNat = a.toNat % 2 := by
  rw [shiftedOutLow, BitVec.toNat_and]
  exact Nat.and_one_is_mod _

theorem shiftedOutHigh_toNat (a : Byte) : (shiftedOutHigh a).toNat = a.toNat / 128 := by
  have hlt := a.isLt
  rw [shiftedOutHigh, BitVec.toNat_and, BitVec.toNat_ushiftRight, Nat.shiftRight_eq_div_pow]
  refine (Nat.and_one_is_mod _).trans ?_
  omega

/-- 8XY6 with the parameters as an argument meets R209. -/
theorem shiftRight_shiftsRight (c : Config) (x y : Reg) (s : State) : shiftsRight c (shiftRight c x y) x y s := by
  obtain ⟨t, ht, hresult, hflag, hpc, -, hframe⟩ := answers_of_setVFlag c (o := shiftRight c x y s) rfl
  rw [shiftOperand_eq] at hresult hflag
  refine ⟨t, ht, fun hx => ?_, ?_, hpc, hframe⟩
  · rw [hresult hx, toNat_byte_shiftRight_one]
  · rw [hflag, shiftedOutLow_toNat]

/-- 8XYE with the parameters as an argument meets R211. -/
theorem shiftLeft_shiftsLeft (c : Config) (x y : Reg) (s : State) : shiftsLeft c (shiftLeft c x y) x y s := by
  obtain ⟨t, ht, hresult, hflag, hpc, -, hframe⟩ := answers_of_setVFlag c (o := shiftLeft c x y s) rfl
  rw [shiftOperand_eq] at hresult hflag
  refine ⟨t, ht, fun hx => ?_, ?_, hpc, hframe⟩
  · rw [hresult hx, toNat_byte_shiftLeft_one]
  · rw [hflag, shiftedOutHigh_toNat]

/-- Settles O49: both `exec` and `execWith` run the two as `shiftRight` and `shiftLeft`. -/
theorem shiftsPutTheBitShiftedOutIntoVF : Obligations.ShiftsPutTheBitShiftedOutIntoVF :=
  ⟨fun x y => ⟨EncodeMatches.encodedBy_of (EncodeMatches.shr x y) rfl,
      EncodeMatches.encodedBy_of (EncodeMatches.shl x y) rfl⟩,
    fun c x y s => ⟨shiftRight_shiftsRight c x y s, shiftLeft_shiftsLeft c x y s⟩, rfl,
    fun x y s => ⟨shiftRight_shiftsRight Config.hardware x y s, shiftLeft_shiftsLeft Config.hardware x y s⟩⟩

/-! ### The random byte -/

/-- A draw writes one register, the count of draws and pc. -/
theorem changesOnlyIn_drawRandom (c : Config) (b : Byte) (x : Reg) (nn : Byte) (s : State) :
    changesOnlyIn c [.reg x, .rndDraws, .pc] s (drawRandom b x nn s) := by
  intro p hp
  cases p with
  | reg r => exact State.getV_setV_other _ _ (by simpa using hp)
  | rndDraws => simp at hp
  | pc => simp at hp
  | _ => rfl

/-- Settles O50: the byte of this draw, masked bit by bit. -/
theorem rndMasksAFreshDraw : Obligations.RndMasksAFreshDraw := by
  intro x nn s
  refine ⟨EncodeMatches.encodedBy_of (EncodeMatches.rnd x nn) rfl, _, rfl, fun k _ => ?_, rfl, rfl, rfl,
    changesOnlyIn_drawRandom _ _ x nn s⟩
  rw [← BitVec.getLsbD_and]
  exact congrArg (BitVec.getLsbD · k) (State.getV_setV_same x _ _)

/-! ### Who writes VF -/

/-- A write of one register that changes VF is a write of VF. -/
theorem eq_vF_of_set {s t : State} {x : Reg} {w : Byte} (ht : t.v = s.v.set x w) (hne : t.getV vF ≠ s.getV vF) :
    x = vF := by
  by_contra hx
  exact hne ((State.getV_congr (s := s.setV x w) ht vF).trans (State.getV_setV_other w s (Ne.symm hx)))

/-- Settles O31, over the instructions: besides those that define a flag, each writes no register or one of its own, which
is VF only for X = 0xF; an instruction that raises writes none. -/
theorem flagRegisterHasOnlyItsWriters : Obligations.FlagRegisterHasOnlyItsWriters := by
  intro i s t hexec hne
  cases h : raisedCause i s with
  | some k =>
    cases (exec_of_raisedCause h).symm.trans hexec
    exact absurd rfl hne
  | none =>
    cases i with
    | addReg x y | sub x y | shr x y | subn x y | shl x y => exact .inl ⟨x, y, by simp⟩
    | drw x y n => exact .inr (.inl ⟨x, y, n, rfl⟩)
    | ldByte x nn | addByte x nn | rnd x nn | ldReg x y | orReg x y | andReg x y | xorReg x y | ldXDt x =>
      cases hexec
      obtain rfl := eq_vF_of_set (x := x) rfl hne
      simp
    | ldXMem x =>
      obtain ⟨v, hok, habove⟩ := exec_ldXMem_completes h
      cases hok.symm.trans hexec
      have hx : ¬ x.val < vF.val := fun hlt => hne (habove vF hlt)
      obtain rfl : x = vF := Fin.ext (Nat.le_antisymm (Nat.le_of_lt_succ x.isLt) (Nat.not_lt.1 hx))
      simp
    | ret =>
      obtain ⟨n, w, hok⟩ := exec_ret_completes h
      cases hok.symm.trans hexec
      exact absurd rfl hne
    | call nnn =>
      obtain ⟨st, n, w, hok⟩ := exec_call_completes h
      cases hok.symm.trans hexec
      exact absurd rfl hne
    | ldBX x =>
      obtain ⟨m, hok⟩ := exec_ldBX_completes h
      cases hok.symm.trans hexec
      exact absurd rfl hne
    | ldMemX x =>
      obtain ⟨m, hok⟩ := exec_ldMemX_completes h
      cases hok.symm.trans hexec
      exact absurd rfl hne
    | _ =>
      cases hexec
      exact absurd (State.getV_congr (by simp) vF) hne

/-! ### Call and return -/

/-- Settles O41: the return pops the slot that the call pushed. -/
theorem returnComesBackAfterTheCall : Obligations.ReturnComesBackAfterTheCall := by
  intro nnn s t u hs hcall hstack hsp
  obtain ⟨-, hpush, -⟩ := callPushesTheNextAddress nnn s
  obtain ⟨t', hcall', hslot, hspt, -⟩ := hpush hs
  cases hcall.symm.trans hcall'
  have hspu : u.sp.val = s.sp.val + 1 := by rw [hsp, hspt]
  obtain ⟨hpop, -⟩ := retPopsTheReturnAddress.2 u
  obtain ⟨w, hret, hpc, hspw, -⟩ := hpop (by omega)
  refine ⟨w, hret, ?_, Fin.ext (by omega)⟩
  simp only [hpc, hstack, hspu, Nat.add_sub_cancel, hslot]

/-! ### The index register -/

/-- Settles O52: the sum of two words as bit vectors wraps at 2^16. -/
theorem addIndexWrapsWithoutFlag : Obligations.AddIndexWrapsWithoutFlag := fun x s =>
  ⟨EncodeMatches.encodedBy_of (EncodeMatches.addIX x) rfl,
    exec_of_setI rfl (by rw [BitVec.toNat_add, zextByte_toNat])⟩

/-- Settles O56: FX65 reads the bytes that FX55 wrote, and both advance I alike. -/
theorem storeThenLoadRestoresRegisters : Obligations.StoreThenLoadRestoresRegisters := by
  intro x s t u hfont hrange hstore hmem hi
  obtain ⟨hstores, -⟩ := storeRegs_storesRegisters Config.hardware x s
  obtain ⟨t', hstore', hbytes, hit, -⟩ := hstores hrange (.inl hfont)
  cases hstore.symm.trans hstore'
  obtain ⟨-, hloads, -⟩ := ldXMemLoadsRegisters x u
  obtain ⟨w, hload, hregs, hiw, -⟩ := hloads (by rwa [hi])
  refine ⟨w, hload, BitVec.eq_of_toNat_eq (by rw [hiw, hit, hi]), fun k hk => ?_⟩
  rw [hregs k hk, hi, ← hbytes k hk]
  exact State.readMem_congr hmem _

/-! ### Keys -/

/-- The key whose code is V[X] is held: the code is at most 15 and its key is held (R250, D19). -/
theorem keyHeld_iff (x : Reg) (s : State) :
    keyHeld x s = true ↔ ∃ k : Fin 16, (s.getV x).toNat = k.val ∧ s.keys[k] = true := by
  unfold keyHeld
  split
  case isTrue hlt =>
    constructor
    · exact fun hheld => ⟨⟨_, hlt⟩, rfl, hheld⟩
    · rintro ⟨k, hk, hheld⟩
      obtain rfl : k = ⟨_, hlt⟩ := Fin.ext hk.symm
      exact hheld
  case isFalse hge => exact iff_of_false Bool.false_ne_true fun ⟨k, hk, _⟩ => hge (hk ▸ k.isLt)

/-- Settles O57: both end in a conditional skip, on the key being held and on its not being held. -/
theorem keySkipsFollowTheHeldKeys : Obligations.KeySkipsFollowTheHeldKeys := by
  intro x s
  obtain ⟨t, ht, hpct, hmemt, hframet⟩ := exec_of_skipIf (i := .skp x) (s := s) rfl
  obtain ⟨u, hu, hpcu, hmemu, hframeu⟩ := exec_of_skipIf (i := .sknp x) (s := s) rfl
  refine ⟨EncodeMatches.encodedBy_of (EncodeMatches.skp x) rfl, EncodeMatches.encodedBy_of (EncodeMatches.sknp x) rfl,
    t, u, ht, hu, ?_, ?_, hmemt, hmemu, hframet, hframeu⟩
  · rw [← keyHeld_iff, hpct, hpcu]
    intro hheld
    simp [hheld]
  · rw [← keyHeld_iff, hpct, hpcu]
    intro hfree
    simp [hfree]

/-- Entering the wait writes `MODE`, AWAIT_TARGET and pc. -/
theorem changesOnlyIn_enterWait (c : Config) (s : State) (x : Reg) (m : Mode) (q : Word) :
    changesOnlyIn c [.mode, .awaitTarget, .pc] s (State.setPc q { s with awaitTarget := x, mode := m }) := by
  intro p hp
  cases p with
  | mode => simp at hp
  | awaitTarget => simp at hp
  | pc => simp at hp
  | _ => rfl

/-- Settles O59: the entry writes no register, whatever keys are held. -/
theorem ldKEntersTheWait : Obligations.LdKEntersTheWait := fun x s =>
  ⟨EncodeMatches.encodedBy_of (EncodeMatches.ldXK x) rfl, _, rfl, rfl, rfl, rfl, rfl,
    changesOnlyIn_enterWait _ s x _ _⟩

end Sys2Proof.Machine
